-- ==== Sys2Proof/Word.lean ====
section
/-!
DEFINITION. The machine's plain value types (00_scope.md R8, R10).

All values are unsigned and all arithmetic on words is modulo 2^32 (R11): `BitVec`'s `+`, `-`, `*`,
`^^^`, `|||` and shifts are exactly that.
-/

namespace Sys2Proof

/-- An 8-bit unsigned integer (R10). -/
abbrev Byte := BitVec 8

/-- A 32-bit unsigned integer (R8, R10). -/
abbrev Word := BitVec 32

/-- A byte offset from BASE inside the 16 KiB window, `0x0000..0x3FFF` (R61). -/
abbrev Offset := BitVec 14

/-- The 128 data lines of the entropy port (R60, R66). -/
abbrev EntropyWord := BitVec 128

/-- Four 32-bit words: the registers BLK0..BLK3 and IV0..IV3 (R33, R34) and the value of
`bytesToBlock` (R120), whose words are named `A = w0, B = w1, C = w2, D = w3`. -/
structure Quad where
  w0 : Word
  w1 : Word
  w2 : Word
  w3 : Word
deriving DecidableEq, Repr

end Sys2Proof
end

