-- ==== Sys2Proof/Config.lean ====
section
/-!
DEFINITION. The parameters of the hardware: those the source fixes (00_scope.md R8), as constants, and
those R9 leaves open, as the record `Params`, which every definition that depends on one takes as an
argument with R9's values as its default. "The configuration ... is not state" (10_state.md R20).
-/

namespace Sys2Proof

/-- `P32`, the initial value of S[0] (R8, R141). -/
def Config.p32 : Word := 0xB7E15163#32

/-- `Q32`, the step of the schedule initialisation (R8, R141). -/
def Config.q32 : Word := 0x9E3779B9#32

/-- `BLOCK_BYTES` (R8). -/
def Config.blockBytes : Nat := 16

/-- The hard-wired value of ID (R2, R24). -/
def Config.idValue : Word := 0x46430001#32

/-- `BASE`, the platform's base address of the core: OPEN (R9, U9). Nothing in Lean can tell its
value. DESIGN CHOICE (log entry 13): an address is a natural number; safe. -/
opaque Config.base : Nat

/-- The parameters of R9, each with the value R9 gives it as its default. The command latency, R9's
other OPEN parameter, is the number of moves between acceptance and completion (log entry 14).

R9 names the parameters and gives no rule for other values than the defaults: what each then does is
a DESIGN CHOICE (log entry 18). -/
structure Params where
  /-- `R_MAX`, the largest round count (D9). -/
  rMax : Nat := 255
  /-- `T_MAX`, the words of the schedule memory (D9). -/
  tMax : Nat := 2 * rMax + 4
  /-- `C_MAX`, the key words (D10). -/
  cMax : Nat := 8
  /-- `IN_BUF_BYTES` (D22). -/
  inBufBytes : Nat := 4096
  /-- `OUT_BUF_BYTES` (D22). -/
  outBufBytes : Nat := 4096
  /-- `BASE` (D6). -/
  base : Nat := Config.base
  /-- The bus data width in bits (D2). -/
  busBits : Nat := 32
  /-- The size of the core's address window (D6). -/
  windowBytes : Nat := 0x4000
deriving DecidableEq, Repr

/-- The parameters of this hardware: every one at R9's value. `exec` and `step` run with these. -/
def Config.params : Params := {}

end Sys2Proof
end

