-- ==== Sys2Proof/Syntax.lean ====
section
/-!
DEFINITION. The commands (30_encoding.md R91), the fields of a command word (R90), and the bus
transactions that carry everything a host says to the core (20_memory.md R61).
-/

namespace Sys2Proof

/-- The eight commands, one constructor per row of spec/opcode_table.json (R91). A command carries
no operand, immediate or register field (R93). A command plays the role of an instruction (R17). -/
inductive Instr where
  /-- KEY_EXPAND (R145). -/
  | keyExpand
  /-- KEY_CLEAR (R146). -/
  | keyClear
  /-- BLK_ENC (R164). -/
  | blkEnc
  /-- BLK_DEC (R165). -/
  | blkDec
  /-- CBC_ENC (R204). -/
  | cbcEnc
  /-- CBC_DEC (R205). -/
  | cbcDec
  /-- PAD (R183). -/
  | pad
  /-- UNPAD (R184). -/
  | unpad
deriving DecidableEq, Repr

/-- The two fields of the one command format, CMD32 (R90). -/
structure CommandFields where
  /-- OP, bits [3:0]. -/
  op : BitVec 4
  /-- RSV, bits [31:4], which must be 0. -/
  rsv : BitVec 28
deriving DecidableEq, Repr

/-- Why a word is no command (R92). -/
inductive Illegal where
  /-- RSV is not 0. -/
  | rsvNotZero
  /-- OP is `0x0` or `0x9`..`0xF`. -/
  | opReserved
  /-- Fewer than the four bytes of a command word (R90: "There is no other length"). -/
  | tooShort
deriving DecidableEq, Repr

/-- The access widths of the bus: 1, 2 or 4 bytes (R61). -/
inductive Width where
  | b1
  | b2
  | b4
deriving DecidableEq, Repr

/-- A bus transaction of the host (R61). The data of a write is held in a word, of which an access
of n bytes uses the low n bytes (R71). -/
inductive Txn where
  /-- `Read(a, n)`. -/
  | read (a : Offset) (n : Width)
  /-- `Write(a, n, v)`. -/
  | write (a : Offset) (n : Width) (v : Word)
deriving DecidableEq, Repr

end Sys2Proof
end

