-- ==== Sys2Proof/WellFormed.lean ====
section
/-!
DEFINITION. What the encodings admit: the fields of a command word (30_encoding.md R90, R92), a
command (R93), a bus transaction (20_memory.md R61), and the parameters the register map has room for
(00_scope.md R9, 20_memory.md R62).

No meaning depends on these checks: an illegal command word is accepted and completes with an error
(R92), and a write uses only the low n bytes of its data (R71).
-/

namespace Sys2Proof

/-- RSV must be 0 (R90). -/
def CommandFields.rsvZero (f : CommandFields) : Bool :=
  f.rsv == 0

/-- OP is one of `0x1`..`0x8` (R91, R92). -/
def CommandFields.opAssigned (f : CommandFields) : Bool :=
  decide (1 ≤ f.op.toNat) && decide (f.op.toNat ≤ 8)

/-- The fields of a legal command word (R90, R92). -/
def CommandFields.wf (f : CommandFields) : Bool :=
  f.rsvZero && f.opAssigned

/-- Every command is well formed, because it carries no operand (R93). -/
def Instr.wf : Instr → Bool
  | .keyExpand => true
  | .keyClear => true
  | .blkEnc => true
  | .blkDec => true
  | .cbcEnc => true
  | .cbcDec => true
  | .pad => true
  | .unpad => true

/-- The data of `Write(a, n, v)` is an n-byte value (R61). -/
def Txn.wf : Txn → Bool
  | .read _ _ => true
  | .write _ .b1 v => decide (v.toNat < 2 ^ 8)
  | .write _ .b2 v => decide (v.toNat < 2 ^ 16)
  | .write _ .b4 _ => true

/-- What the fields and the map leave room for: ROUNDS has 8 bits (R25) and S holds the largest
schedule (R9); there are eight KEY offsets (R23); each buffer is a whole number of words in its 4096
bytes of the map (R62, R64), and OutBuf holds what UNPAD and CBC_DEC, which make no output test, can
deliver (R30, R184, R205); the data lines are those of a word, and the window is the 14-bit one
(R61). DESIGN CHOICE (log entry 18). -/
def Params.wf (p : Params) : Bool :=
  decide (p.rMax ≤ 255) && p.tMax == 2 * p.rMax + 4 && decide (p.cMax ≤ 8) &&
    decide (p.inBufBytes ≤ 4096) && p.inBufBytes % 4 == 0 &&
    decide (p.outBufBytes ≤ 4096) && p.outBufBytes % 4 == 0 &&
    decide (p.inBufBytes ≤ p.outBufBytes) && p.busBits == 32 && p.windowBytes == 0x4000

end Sys2Proof
end

