-- ==== Sys2Proof/Decode.lean ====
section
/-!
DEFINITION. Byte lanes (20_memory.md R63), the decoder of command words (30_encoding.md R94), total
on every word and on every list of bytes, and the encoder (R91).
-/

namespace Sys2Proof

/-- Byte k of a word, `w[8k+7 : 8k]`: the byte of bus lane k (R63). -/
def byteLane (w : Word) (k : Nat) : Byte :=
  w.extractLsb' (8 * k) 8

/-- The value `sum over k of byte[k] * 2^(8k)` of at most four bytes (R63). -/
def leValue : List Byte → Word
  | [] => 0#32
  | b :: bs => b.setWidth 32 ||| (leValue bs <<< 8)

/-- The low n bytes of a word, lowest lane first (R63). -/
def laneBytes (w : Word) (n : Nat) : List Byte :=
  (List.range n).map (byteLane w)

/-- The fields OP and RSV of a command word (R90). -/
def commandFields (w : Word) : CommandFields :=
  { op := w.extractLsb' 0 4, rsv := w.extractLsb' 4 28 }

/-- The decoder (R94): every 32-bit word is one of the eight commands or illegal. RSV is tested
first; both refusals complete alike (R227). -/
def decode (w : Word) : Except Illegal Instr :=
  let f := commandFields w
  if f.rsv ≠ 0 then .error .rsvNotZero
  else
    match f.op.toNat with
    | 1 => .ok .keyExpand
    | 2 => .ok .keyClear
    | 3 => .ok .blkEnc
    | 4 => .ok .blkDec
    | 5 => .ok .cbcEnc
    | 6 => .ok .cbcDec
    | 7 => .ok .pad
    | 8 => .ok .unpad
    | _ => .error .opReserved

/-- The decoder on bytes in bus order (R63): a command word is four bytes (R90), and what follows
them is handed back. -/
def decodeBytes : List Byte → Except Illegal (Instr × List Byte)
  | b0 :: b1 :: b2 :: b3 :: rest =>
    match decode (leValue [b0, b1, b2, b3]) with
    | .ok i => .ok (i, rest)
    | .error e => .error e
  | _ => .error .tooShort

/-- The OP number of each command (R91). -/
def Instr.opcode : Instr → BitVec 4
  | .keyExpand => 1#4
  | .keyClear => 2#4
  | .blkEnc => 3#4
  | .blkDec => 4#4
  | .cbcEnc => 5#4
  | .cbcDec => 6#4
  | .pad => 7#4
  | .unpad => 8#4

/-- The command word of a command: RSV = 0 above its OP (R90, R91). -/
def encode (i : Instr) : Word :=
  0#28 ++ i.opcode

/-- The instruction the decoder reads from an opcode-table word: bits above `nbits` are 0, and a
command word has 32 bits (R90), so anything set above them is no command word. -/
def decodeTableWord (nbits w : Nat) : Option Instr :=
  let v := w % 2 ^ nbits
  if v < 2 ^ 32 then
    match decodeBytes (laneBytes (BitVec.ofNat 32 v) 4) with
    | .ok (i, _) => some i
    | .error _ => none
  else none

end Sys2Proof
end

