-- ==== Sys2Proof/Machine/Codec.lean ====
section
/-!
DEFINITION. The datapath's word arithmetic (40_common.md R124 to R126), the Word/Block Codec (R120,
R121) and the block xor (R127).
-/

namespace Sys2Proof.Machine

/-- `ROTL(x, n)`: rotate left by `n mod 32` (R12, R125). -/
def rotl (x : Word) (n : Nat) : Word :=
  let s := n % 32
  if s = 0 then x else (x <<< s) ||| (x >>> (32 - s))

/-- `ROTR(x, n)`: rotate right by `n mod 32` (R12, R125). -/
def rotr (x : Word) (n : Nat) : Word :=
  let s := n % 32
  if s = 0 then x else (x >>> s) ||| (x <<< (32 - s))

/-- The round mixing function `F(x) = ROTL(x * (2x + 1), 5)` (R126). -/
def mixF (x : Word) : Word :=
  rotl (x * (2#32 * x + 1#32)) 5

/-- Word k of the codec: bytes `b[4k] .. b[4k+3]`, the first least significant (R120). -/
def codecWord (b : List Byte) (k : Nat) : Word :=
  (b.getD (4 * k) 0#8).setWidth 32
    ||| ((b.getD (4 * k + 1) 0#8).setWidth 32 <<< 8)
    ||| ((b.getD (4 * k + 2) 0#8).setWidth 32 <<< 16)
    ||| ((b.getD (4 * k + 3) 0#8).setWidth 32 <<< 24)

/-- `bytesToBlock` (R120); every caller passes exactly 16 bytes. -/
def bytesToBlock (b : List Byte) : Quad :=
  { w0 := codecWord b 0, w1 := codecWord b 1, w2 := codecWord b 2, w3 := codecWord b 3 }

/-- `blockToBytes` (R121): `b[4k+m] = wk[8m+7 : 8m]`. -/
def blockToBytes (q : Quad) : List Byte :=
  laneBytes q.w0 4 ++ laneBytes q.w1 4 ++ laneBytes q.w2 4 ++ laneBytes q.w3 4

/-- `X xor Y`, bytewise (R13, R127). -/
def xorBytes (x y : List Byte) : List Byte :=
  List.zipWith (fun a b => a ^^^ b) x y

/-- Word i of four (R33, R34: BLK0..BLK3, IV0..IV3). -/
def quadGet (q : Quad) (i : Fin 4) : Word :=
  match i with
  | 0 => q.w0
  | 1 => q.w1
  | 2 => q.w2
  | 3 => q.w3

/-- Four words with word i replaced. -/
def quadSet (q : Quad) (i : Fin 4) (v : Word) : Quad :=
  match i with
  | 0 => { q with w0 := v }
  | 1 => { q with w1 := v }
  | 2 => { q with w2 := v }
  | 3 => { q with w3 := v }

end Sys2Proof.Machine
end

