-- ==== Sys2Proof/Machine/State.lean ====
section
/-!
DEFINITION. The machine's state as plain data: the core's architectural record, field by field as
10_state.md R20 lists it (`CoreState`), and around it the input pins and the world's next moves
(`State`). What the state is after reset: R41.
-/

namespace Sys2Proof.Machine

/-- Why the machine takes no further step. -/
inductive Fault where
  /-- Raised by a bus transaction issued while `rst_n = 0`: it "gets no defined response, and the
  model gives it no step" (R250, U12: stuck). Safe: the model stops where the spec gives nothing.
  No command raises it. -/
  | busInReset
deriving DecidableEq, Repr

/-- Why an instruction has no meaning here. -/
inductive Refusal where
  /-- Raised by an arm of `exec` whose instruction has no meaning yet; no arm does. Safe. -/
  | notModelled (mnemonic : String)
deriving DecidableEq, Repr

/-- The command errors (R220), the core's only exceptions. -/
inductive ErrCode where
  /-- INVALID_KEY_LENGTH, code 1 (R221). -/
  | invalidKeyLength
  /-- INVALID_CIPHERTEXT_LENGTH, code 2 (R222). -/
  | invalidCiphertextLength
  /-- INVALID_PADDING, code 3 (R223). -/
  | invalidPadding
  /-- INVALID_ROUNDS, code 4 (R224). -/
  | invalidRounds
  /-- NO_KEY, code 5 (R225). -/
  | noKey
  /-- INVALID_LENGTH, code 6 (R226). -/
  | invalidLength
  /-- ILLEGAL_COMMAND, code 7 (R227). -/
  | illegalCommand
deriving DecidableEq, Repr

/-- CTRL's fields (R25); its reserved bits have no storage (R40). -/
structure Ctrl where
  rounds : BitVec 8
  keyLen : BitVec 6
  ivMode : Bool
deriving DecidableEq, Repr

/-- STATUS's fields (R27). -/
structure Status where
  busy : Bool
  done : Bool
  err : Bool
  lockErr : Bool
  errCode : BitVec 4
  keyValid : Bool
deriving DecidableEq, Repr

/-- ACTIVE's fields (R31): the round count and key length of the active schedule. -/
structure Active where
  schedR : BitVec 8
  schedKLen : BitVec 6
deriving DecidableEq, Repr

/-- A byte memory of one buffer: (index, byte) pairs, indices strictly rising, no entry equal to
what an unlisted index reads as (`Memory.wf`, Machine/Ops.lean). -/
abbrev Memory := List Host.Cell

/-- The operands a command captures at acceptance (R111): every value that 30_encoding.md R93
lists as read by some command. -/
structure Operands where
  ctrl : Ctrl
  inLen : Word
  key : Vector Word 8
  blk : Quad
  iv : Quad
  /-- `InBuf[0 .. min(IN_LEN, IN_BUF_BYTES)-1]`. -/
  inBytes : List Byte
  keyValid : Bool
  active : Active
  /-- The active schedule, `S[0 .. 2*SCHED_R+3]`; empty when there is none (log entry 12). -/
  sched : List Word
deriving DecidableEq, Repr

/-- An accepted command: its word and its captured operands (R39). The word is decoded at
completion (DEDUCED, log entry 9; safe: `decode` is a function of the word). -/
structure Pending where
  word : Word
  ops : Operands
deriving DecidableEq, Repr

/-- The architectural state of the core: exactly the record of R20. -/
structure CoreState where
  /-- CTRL (R25). -/
  ctrl : Ctrl
  /-- STATUS (R27). -/
  status : Status
  /-- IRQ_EN.DONE_IE (R28). -/
  doneIe : Bool
  /-- IN_LEN (R29). -/
  inLen : Word
  /-- OUT_LEN (R30). -/
  outLen : Word
  /-- ACTIVE (R31). -/
  active : Active
  /-- KEY0..KEY7, the eight KEY offsets of the map (R23, R32). -/
  key : Vector Word 8
  /-- BLK0..BLK3 (R33). -/
  blk : Quad
  /-- IV0..IV3 (R34). -/
  iv : Quad
  /-- The schedule memory S, T_MAX words (R35, R9). -/
  sched : List Word
  /-- InBuf (R37). -/
  inBuf : Memory
  /-- OutBuf (R38). -/
  outBuf : Memory
  /-- PENDING (R39). -/
  pending : Option Pending
deriving DecidableEq, Repr

/-- A bus response (R61). -/
inductive RespKind where
  | okay
  | error
deriving DecidableEq, Repr

/-- What a bus transaction answers: its response, and the value of a read (0 for a write; log
entry 11). -/
structure Response where
  kind : RespKind
  value : Word
deriving DecidableEq, Repr

/-- One move of the world around the datapath (R18): the host's, the core's, the entropy source's
or the reset pin's. The order of a list of moves is the order the spec leaves open (U19; DESIGN
CHOICE, log entry 3). -/
inductive Input where
  /-- The host issues a transaction (R61). -/
  | bus (t : Txn)
  /-- The core takes its turn: it completes the pending command, if that is enabled (R112). -/
  | core
  /-- The entropy source drives its lines: `some d` is `ent_valid = 1` with `ent_data = d`, `none`
  is `ent_valid = 0` (R60, R66). -/
  | entropy (offer : Option EntropyWord)
  /-- `rst_n` falls (R250); `draws` are the values the InBuf bytes come to hold, one draw per byte
  (U3), bytes not named being 0. -/
  | resetLow (draws : List Host.Cell)
  /-- `rst_n` rises: the release of reset (R250). -/
  | resetHigh
deriving DecidableEq, Repr

/-- The whole machine: the core and what drives it. -/
structure State where
  /-- The core's architectural record (R20). -/
  core : CoreState
  /-- The level of the pin `rst_n` (R60). -/
  rstN : Bool
  /-- The entropy port: `some d` is an offer of `d` (R66). -/
  entropy : Option EntropyWord
  /-- What happens next, in order; empty: the host is silent and the core has its turn (log
  entry 3). -/
  inputs : List Input
  /-- What the last bus transaction answered (R61). -/
  resp : Option Response
deriving DecidableEq, Repr

/-- CTRL after reset, `0x00001014` (R41). -/
def Ctrl.reset : Ctrl := { rounds := 20#8, keyLen := 16#6, ivMode := false }

/-- STATUS after reset, 0 (R41). -/
def Status.reset : Status :=
  { busy := false, done := false, err := false, lockErr := false, errCode := 0#4, keyValid := false }

/-- ACTIVE after reset, 0 (R41). -/
def Active.reset : Active := { schedR := 0#8, schedKLen := 0#6 }

/-- Four words of 0 (R41: BLK and IV). -/
def Quad.zero : Quad := { w0 := 0#32, w1 := 0#32, w2 := 0#32, w3 := 0#32 }

/-- The core's record right after reset (R41), with the InBuf contents that reset drew (R37, R250).
DESIGN CHOICE (log entry 1): S and OutBuf, "unspecified and unobservable", hold 0; safe, no rule
reads them. -/
def CoreState.reset (inBuf : Memory) (p : Params := Config.params) : CoreState :=
  { ctrl := Ctrl.reset
    status := Status.reset
    doneIe := false
    inLen := 0#32
    outLen := 0#32
    active := Active.reset
    key := Vector.replicate 8 0#32
    blk := Quad.zero
    iv := Quad.zero
    sched := List.replicate p.tMax 0#32
    inBuf := inBuf
    outBuf := []
    pending := none }

/-- The machine right after reset (R41, R252). DESIGN CHOICE (log entry 2): its InBuf lists nothing
and so reads 0, where the spec says "unspecified"; unsafe for a claim about this one state, which is
why no statement rests on it. Its world is silent (log entry 3). -/
def State.reset : State :=
  { core := CoreState.reset []
    rstN := true
    entropy := none
    inputs := []
    resp := none }

end Sys2Proof.Machine
end

