-- ==== Sys2Proof/Machine/Flags.lean ====
section
/-!
DEFINITION. The STATUS flags (10_state.md R27, R42): who sets and clears each; the register words of
CTRL, STATUS, IRQ_EN and ACTIVE (R25, R27, R28, R31) with their reserved bits 0 (R40); the error
codes (60_exceptions.md R220); the interrupt output (R232). No command sets a flag from arithmetic.
-/

namespace Sys2Proof.Machine

/-- The numeric code of each error (R220). -/
def ErrCode.code : ErrCode → BitVec 4
  | .invalidKeyLength => 1#4
  | .invalidCiphertextLength => 2#4
  | .invalidPadding => 3#4
  | .invalidRounds => 4#4
  | .noKey => 5#4
  | .invalidLength => 6#4
  | .illegalCommand => 7#4

/-- One bit at position k of a register word. -/
def bitAt (b : Bool) (k : Nat) : Word :=
  (BitVec.ofBool b).setWidth 32 <<< k

/-- CTRL as read: ROUNDS [7:0], KEYLEN [13:8], IV_MODE [16], all else 0 (R25, R40). -/
def Ctrl.toWord (c : Ctrl) : Word :=
  c.rounds.setWidth 32 ||| (c.keyLen.setWidth 32 <<< 8) ||| bitAt c.ivMode 16

/-- CTRL as written: any value of a writable field is stored, reserved bits are ignored (R25, R40). -/
def Ctrl.ofWord (v : Word) : Ctrl :=
  { rounds := v.extractLsb' 0 8, keyLen := v.extractLsb' 8 6, ivMode := v.getLsbD 16 }

/-- STATUS as read: BUSY [0], DONE [1], ERR [2], LOCKERR [3], ERRCODE [7:4], KEY_VALID [8] (R27). -/
def Status.toWord (st : Status) : Word :=
  bitAt st.busy 0 ||| bitAt st.done 1 ||| bitAt st.err 2 ||| bitAt st.lockErr 3
    ||| (st.errCode.setWidth 32 <<< 4) ||| bitAt st.keyValid 8

/-- ACTIVE as read: SCHED_R [7:0], SCHED_KLEN [13:8], all else 0 (R31). -/
def Active.toWord (a : Active) : Word :=
  a.schedR.setWidth 32 ||| (a.schedKLen.setWidth 32 <<< 8)

/-- Acceptance sets BUSY and clears DONE, ERR and ERRCODE; LOCKERR and KEY_VALID keep their values
(R110). -/
def Status.accept (st : Status) : Status :=
  { st with busy := true, done := false, err := false, errCode := 0#4 }

/-- Completion sets DONE and clears BUSY (R112). -/
def Status.complete (st : Status) : Status :=
  { st with done := true, busy := false }

/-- Completion with an error also sets ERR and ERRCODE (R112, R228). -/
def Status.fail (st : Status) (e : ErrCode) : Status :=
  { st with err := true, errCode := e.code, done := true, busy := false }

/-- A write of STATUS clears DONE if bit 1 of the data is 1 and LOCKERR if bit 3 is 1; every other
bit is ignored (R27, R71). This is the host's acknowledgement, the core's only form of a return
from an error (R231). -/
def Status.writeOneToClear (st : Status) (v : Word) : Status :=
  { st with
    done := if v.getLsbD 1 then false else st.done
    lockErr := if v.getLsbD 3 then false else st.lockErr }

/-- A refused access sets LOCKERR (R114, R115). -/
def CoreState.setLockErr (c : CoreState) : CoreState :=
  { c with status := { c.status with lockErr := true } }

/-- The interrupt output: `irq = IRQ_EN.DONE_IE and STATUS.DONE`, a function of the state without a
latch (R232). -/
def CoreState.irq (c : CoreState) : Bool :=
  c.doneIe && c.status.done

end Sys2Proof.Machine
end

