-- ==== Sys2Proof/Machine/Ops.lean ====
section
/-!
DEFINITION. The named operations over the buffers (10_state.md R37, R38), over the schedule memory
(R35), and the two ends of a command: its completion (40_common.md R112) and its completion with an
error, "the core's form of trap entry" (60_exceptions.md R228). There is no return instruction
(R231); what the host does instead is `Status.writeOneToClear` (Machine/Flags.lean).
-/

namespace Sys2Proof.Machine

/-- What a byte that no entry lists reads as (log entries 1 and 2). -/
def Memory.unlisted : Byte := 0#8

/-- Byte k of a memory. -/
def Memory.read : Memory → Nat → Byte
  | [], _ => Memory.unlisted
  | (a, b) :: rest, k => if a = k then b else Memory.read rest k

/-- The n bytes from index `base` on. -/
def Memory.bytes (m : Memory) (base n : Nat) : List Byte :=
  (List.range' base n).map (Memory.read m)

/-- The entries that hold the given bytes from index `base` on: those that an unlisted index already
reads as need none. -/
def Memory.cellsAt : Nat → List Byte → Memory
  | _, [] => []
  | base, b :: bs =>
    if b = Memory.unlisted then Memory.cellsAt (base + 1) bs
    else (base, b) :: Memory.cellsAt (base + 1) bs

/-- Store bytes from index `base` on, in canonical form. -/
def Memory.write (m : Memory) (base : Nat) (bs : List Byte) : Memory :=
  m.filter (fun c => decide (c.1 < base)) ++ Memory.cellsAt base bs
    ++ m.filter (fun c => decide (base + bs.length ≤ c.1))

/-- The canonical form of a buffer of `size` bytes: indices strictly rising and below `size`, and no
entry equal to what an unlisted index reads as. -/
abbrev Memory.wf (m : Memory) (size : Nat) : Prop :=
  m.Pairwise (fun x y => x.1 < y.1) ∧ ∀ c ∈ m, c.1 < size ∧ c.2 ≠ Memory.unlisted

/-- The contents that reset drew for a buffer of `size` bytes, in canonical form: later draws for
one index win, and draws outside the buffer are none of its bytes (R37, R250). -/
def Memory.ofDraws (draws : List Host.Cell) (size : Nat) : Memory :=
  draws.foldl (fun m c => if c.1 < size then Memory.write m c.1 [c.2] else m) []

/-- Store new words at the start of the schedule memory; the words above keep their values (R35,
R145: KEY_EXPAND writes `S[0 .. 2r+3]` only). -/
def storeSchedule (old new : List Word) : List Word :=
  new ++ old.drop new.length

/-- Byte k of OutBuf as the host sees it: 0 at and above OUT_LEN (R38, R72). -/
def CoreState.outByte (c : CoreState) (k : Nat) : Byte :=
  if k < c.outLen.toNat then Memory.read c.outBuf k else 0#8

/-- Deliver the output of a buffer-producing command: `OutBuf[k] <- out[k]` and
`OUT_LEN <- len(out)` (R183, R184, R204, R205). -/
def CoreState.deliver (c : CoreState) (out : List Byte) : CoreState :=
  { c with outBuf := Memory.write c.outBuf 0 out, outLen := BitVec.ofNat 32 out.length }

/-- Completion without an error (R112): DONE set, BUSY cleared, PENDING none. -/
def CoreState.complete (c : CoreState) : CoreState :=
  { c with status := c.status.complete, pending := none }

/-- Completion with an error (R228). A buffer-producing command (R17) also gets `OUT_LEN <- 0`;
nothing else changes. -/
def CoreState.fail (c : CoreState) (bufferProducing : Bool) (e : ErrCode) : CoreState :=
  { c with
    status := c.status.fail e
    outLen := if bufferProducing then 0#32 else c.outLen
    pending := none }

/-- The one step `Complete` of R112 on the result of a command: its updates and an ordinary
completion, or the error it raised. -/
def State.finish (s : State) (bufferProducing : Bool) (result : Except ErrCode CoreState) :
    Host.Outcome State Fault Refusal :=
  match result with
  | .ok c => .next { s with core := c.complete }
  | .error e => .next { s with core := s.core.fail bufferProducing e }

/-- The completion of a word that is no command: `Exec(Illegal, ops): raise Error(ILLEGAL_COMMAND)`
(R92, R227). Nothing but STATUS changes. -/
def State.finishIllegal (s : State) : Host.Outcome State Fault Refusal :=
  s.finish false (.error .illegalCommand)

end Sys2Proof.Machine
end

