-- ==== Sys2Proof/Machine/Operands.lean ====
section
/-!
DEFINITION. Every operand of a command is a fixed register or buffer (30_encoding.md R93), captured
when the command is accepted (40_common.md R110, R111).
-/

namespace Sys2Proof.Machine

/-- The active schedule, `S[0 .. 2*SCHED_R+3]`, when there is one (R35, R36). DESIGN CHOICE (log
entry 12): with KEY_VALID = 0 there is none to capture; safe, no command reads it then (R225). -/
def CoreState.activeSchedule (c : CoreState) : List Word :=
  if c.status.keyValid then c.sched.take (2 * c.active.schedR.toNat + 4) else []

/-- `Capture()` (R111): the value of everything a command reads. -/
def CoreState.capture (c : CoreState) (p : Params := Config.params) : Operands :=
  { ctrl := c.ctrl
    inLen := c.inLen
    key := c.key
    blk := c.blk
    iv := c.iv
    inBytes := Memory.bytes c.inBuf 0 (min c.inLen.toNat p.inBufBytes)
    keyValid := c.status.keyValid
    active := c.active
    sched := c.activeSchedule }

/-- The operands the command now completing works on (R112). With nothing pending, which `step`
never runs a command on, they are the registers as they stand, the other reading R111 allows
(DESIGN CHOICE, log entry 8; safe). -/
def CoreState.operands (c : CoreState) (p : Params := Config.params) : Operands :=
  match c.pending with
  | some q => q.ops
  | none => c.capture p

/-- Key bytes `0 .. KEYLEN-1`: key byte k is `KEY[k div 4][8*(k mod 4)+7 : 8*(k mod 4)]` (R32, R145);
the bytes above are ignored. -/
def Operands.keyBytes (ops : Operands) : List Byte :=
  (List.range ops.ctrl.keyLen.toNat).map
    (fun k => byteLane (ops.key.toList.getD (k / 4) 0#32) (k % 4))

/-- The round count r of the active schedule, SCHED_R, not CTRL.ROUNDS (R31, R164). -/
def Operands.rounds (ops : Operands) : Nat :=
  ops.active.schedR.toNat

/-- Acceptance of a command word (R110): STATUS as `Status.accept` says, PENDING the word and the
captured operands. No check on operands happens here. -/
def CoreState.accept (c : CoreState) (w : Word) (p : Params := Config.params) : CoreState :=
  { c with status := c.status.accept, pending := some { word := w, ops := c.capture p } }

end Sys2Proof.Machine
end

