-- ==== Sys2Proof/Machine/BlockTransform.lean ====
section
/-!
DEFINITION. The block transform (42_block_transform.md R160, R161) and its commands BLK_ENC (R164)
and BLK_DEC (R165). The register rotation of a round is the tuple of 90_conflicts.md C1,
`(A, B, C, D) <- (B, C', D, A')`.
-/

namespace Sys2Proof.Machine

/-- Schedule word k, `S[k]`. Only words below `2r+4` are read (R160). -/
def schedWord (sched : List Word) (k : Nat) : Word :=
  sched.getD k 0#32

/-- Round i of encryption (R160). -/
def encRound (sched : List Word) (i : Nat) (q : Quad) : Quad :=
  let t := mixF q.w1
  let u := mixF q.w3
  let a' := rotl (q.w0 ^^^ t) u.toNat + schedWord sched (2 * i)
  let c' := rotl (q.w2 ^^^ u) t.toNat + schedWord sched (2 * i + 1)
  { w0 := q.w1, w1 := c', w2 := q.w3, w3 := a' }

/-- Rounds `1 .. r` of encryption, in rising order (R160). -/
def encRounds (sched : List Word) : Nat → Quad → Quad
  | 0, q => q
  | r + 1, q => encRound sched (r + 1) (encRounds sched r q)

/-- Pre-whitening, the rounds, post-whitening (R160), on the words of a block. -/
def encryptWords (sched : List Word) (r : Nat) (q : Quad) : Quad :=
  let pre : Quad := { q with w1 := q.w1 + schedWord sched 0, w3 := q.w3 + schedWord sched 1 }
  let x := encRounds sched r pre
  { x with w0 := x.w0 + schedWord sched (2 * r + 2), w2 := x.w2 + schedWord sched (2 * r + 3) }

/-- `encryptBlock(X, S, r)` (R160). -/
def encryptBlock (x : List Byte) (sched : List Word) (r : Nat) : List Byte :=
  blockToBytes (encryptWords sched r (bytesToBlock x))

/-- Round i of decryption: the register rotation is undone first, and t and u come from the rotated
B and D (R161). -/
def decRound (sched : List Word) (i : Nat) (q : Quad) : Quad :=
  let a := q.w3
  let b := q.w0
  let c := q.w1
  let d := q.w2
  let u := mixF d
  let t := mixF b
  { w0 := rotr (a - schedWord sched (2 * i)) u.toNat ^^^ t
    w1 := b
    w2 := rotr (c - schedWord sched (2 * i + 1)) t.toNat ^^^ u
    w3 := d }

/-- Rounds `r .. 1` of decryption, in falling order (R161). -/
def decRounds (sched : List Word) : Nat → Quad → Quad
  | 0, q => q
  | r + 1, q => decRounds sched r (decRound sched (r + 1) q)

/-- Undo post-whitening, the rounds, undo pre-whitening (R161, N5), on the words of a block. -/
def decryptWords (sched : List Word) (r : Nat) (q : Quad) : Quad :=
  let post : Quad :=
    { q with w0 := q.w0 - schedWord sched (2 * r + 2), w2 := q.w2 - schedWord sched (2 * r + 3) }
  let x := decRounds sched r post
  { x with w1 := x.w1 - schedWord sched 0, w3 := x.w3 - schedWord sched 1 }

/-- `decryptBlock(Y, S, r)` (R161). -/
def decryptBlock (y : List Byte) (sched : List Word) (r : Nat) : List Byte :=
  blockToBytes (decryptWords sched r (bytesToBlock y))

/-- `Exec(BLK_ENC, ops)` (R164). -/
def blkEnc (ops : Operands) (c : CoreState) : Except ErrCode CoreState :=
  if ops.keyValid then
    .ok { c with blk := bytesToBlock (encryptBlock (blockToBytes ops.blk) ops.sched ops.rounds) }
  else .error .noKey

/-- `Exec(BLK_DEC, ops)` (R165). -/
def blkDec (ops : Operands) (c : CoreState) : Except ErrCode CoreState :=
  if ops.keyValid then
    .ok { c with blk := bytesToBlock (decryptBlock (blockToBytes ops.blk) ops.sched ops.rounds) }
  else .error .noKey

/-- `Complete` for BLK_ENC (R112, R164). -/
def completeBlkEnc (p : Params) (s : State) : Host.Outcome State Fault Refusal :=
  s.finish false (blkEnc (s.core.operands p) s.core)

/-- `Complete` for BLK_DEC (R112, R165). -/
def completeBlkDec (p : Params) (s : State) : Host.Outcome State Fault Refusal :=
  s.finish false (blkDec (s.core.operands p) s.core)

/-- BLK_ENC (R164). -/
def execBlkEnc (s : State) : Host.Outcome State Fault Refusal :=
  completeBlkEnc Config.params s

/-- BLK_DEC (R165). -/
def execBlkDec (s : State) : Host.Outcome State Fault Refusal :=
  completeBlkDec Config.params s

end Sys2Proof.Machine
end

