-- ==== Sys2Proof/Machine/Padding.lean ====
section
/-!
DEFINITION. The padding codec (43_padding.md R180, R181) and its commands PAD (R183) and UNPAD
(R184).
-/

namespace Sys2Proof.Machine

/-- The number of pad bytes for a message of this length, always 1 to 16 (R180). -/
def padLen (len : Nat) : Nat :=
  16 - len % 16

/-- `pad(m)`: n bytes of value n (R180). -/
def padBytes (m : List Byte) : List Byte :=
  m ++ List.replicate (padLen m.length) (BitVec.ofNat 8 (padLen m.length))

/-- `unpad(m)`, `none` where it fails with InvalidPadding: the input is empty, or its last byte p is
0 or above 16, or it is shorter than p (D25), or one of its last p bytes is not p (R181). -/
def unpadBytes (m : List Byte) : Option (List Byte) :=
  match m.getLast? with
  | none => none
  | some p =>
    if p.toNat = 0 ∨ 16 < p.toNat then none
    else if m.length < p.toNat then none
    else if (m.drop (m.length - p.toNat)).all (fun b => b == p) then
      some (m.take (m.length - p.toNat))
    else none

/-- `Exec(PAD, ops)` (R183): the input bound, then the output bound (R226, R229). -/
def padMessage (ops : Operands) (c : CoreState) (p : Params := Config.params) :
    Except ErrCode CoreState :=
  if p.inBufBytes < ops.inLen.toNat then .error .invalidLength
  else if p.outBufBytes < 16 * (ops.inLen.toNat / 16) + 16 then .error .invalidLength
  else .ok (c.deliver (padBytes ops.inBytes))

/-- `Exec(UNPAD, ops)` (R184). -/
def unpadMessage (ops : Operands) (c : CoreState) (p : Params := Config.params) :
    Except ErrCode CoreState :=
  if p.inBufBytes < ops.inLen.toNat then .error .invalidLength
  else
    match unpadBytes ops.inBytes with
    | none => .error .invalidPadding
    | some m => .ok (c.deliver m)

/-- `Complete` for PAD (R112, R183). -/
def completePad (p : Params) (s : State) : Host.Outcome State Fault Refusal :=
  s.finish true (padMessage (s.core.operands p) s.core p)

/-- `Complete` for UNPAD (R112, R184). -/
def completeUnpad (p : Params) (s : State) : Host.Outcome State Fault Refusal :=
  s.finish true (unpadMessage (s.core.operands p) s.core p)

/-- PAD (R183). -/
def execPad (s : State) : Host.Outcome State Fault Refusal :=
  completePad Config.params s

/-- UNPAD (R184). -/
def execUnpad (s : State) : Host.Outcome State Fault Refusal :=
  completeUnpad Config.params s

end Sys2Proof.Machine
end

