-- ==== Sys2Proof/Machine/ChainedMode.lean ====
section
/-!
DEFINITION. The chained-block mode (44_chained_mode.md R201 to R203) and its commands CBC_ENC (R204)
and CBC_DEC (R205), with the entropy port (20_memory.md R66).
-/

namespace Sys2Proof.Machine

/-- Encrypt n 16-byte chunks in order, each xored with the ciphertext block before it (R201). -/
def encChain (sched : List Word) (r : Nat) : Nat → List Byte → List Byte → List Byte
  | 0, _, _ => []
  | n + 1, text, prev =>
    let ck := encryptBlock (xorBytes (text.take 16) prev) sched r
    ck ++ encChain sched r n (text.drop 16) ck

/-- `encryptChained(P, S, r, iv) = iv || C_1 || C_2 || ...` (R201). -/
def encryptChained (p : List Byte) (sched : List Word) (r : Nat) (iv : List Byte) : List Byte :=
  iv ++ encChain sched r ((padBytes p).length / 16) (padBytes p) iv

/-- Decrypt n 16-byte chunks, each result xored with the ciphertext chunk before it (R202). -/
def decChain (sched : List Word) (r : Nat) : Nat → List Byte → List Byte → List Byte
  | 0, _, _ => []
  | n + 1, text, prev =>
    let ck := text.take 16
    xorBytes (decryptBlock ck sched r) prev ++ decChain sched r n (text.drop 16) ck

/-- How `decryptChained` answers (R202). -/
inductive ChainedResult where
  /-- InvalidCiphertextLength. -/
  | badLength
  /-- InvalidPadding. -/
  | badPadding
  /-- The recovered plaintext. -/
  | plain (m : List Byte)
deriving DecidableEq, Repr

/-- The length test of `decryptChained`: at least the IV and one block, in whole blocks (R202). -/
def legalCiphertextLen (n : Nat) : Bool :=
  decide (32 ≤ n) && n % 16 == 0

/-- `decryptChained(Y, S, r)` (R202): the IV is the first 16 bytes. -/
def decryptChained (y : List Byte) (sched : List Word) (r : Nat) : ChainedResult :=
  if ¬ legalCiphertextLen y.length then .badLength
  else
    match unpadBytes (decChain sched r ((y.drop 16).length / 16) (y.drop 16) (y.take 16)) with
    | none => .badPadding
    | some m => .plain m

/-- The 16 bytes of an offer: IV byte k is `ent_data[8k+7 : 8k]` (R66). -/
def entropyBytes (d : EntropyWord) : List Byte :=
  (List.range 16).map (fun k => d.extractLsb' (8 * k) 8)

/-- The checks of CBC_ENC in their order (R204, R229): the error it raises, if any. -/
def cbcEncCheck (ops : Operands) (p : Params := Config.params) : Option ErrCode :=
  if ¬ ops.keyValid then some .noKey
  else if p.inBufBytes < ops.inLen.toNat then some .invalidLength
  else if p.outBufBytes < 32 + 16 * (ops.inLen.toNat / 16) then some .invalidLength
  else none

/-- The IV of a CBC_ENC whose checks passed (R203): an entropy draw, which may not be on offer, or
IV0..IV3. -/
def selectIv (ops : Operands) (offer : Option EntropyWord) : Option (List Byte) :=
  if ops.ctrl.ivMode then some (blockToBytes ops.iv) else offer.map entropyBytes

/-- What the offer on the port is after the IV is selected: a draw takes it (R66). DESIGN CHOICE
(log entry 5): the lines then show no offer until the source drives them again; safe. -/
def offerAfter (ops : Operands) (offer : Option EntropyWord) : Option EntropyWord :=
  if ops.ctrl.ivMode then offer else none

/-- The updates of a CBC_ENC whose checks passed, with its IV (R204). -/
def cbcEncrypt (ops : Operands) (iv : List Byte) (c : CoreState) : CoreState :=
  { c.deliver (encryptChained ops.inBytes ops.sched ops.rounds iv) with iv := bytesToBlock iv }

/-- `Exec(CBC_DEC, ops)` (R205), its checks in the order of R229. The IV registers are not touched. -/
def cbcDecrypt (ops : Operands) (c : CoreState) (p : Params := Config.params) :
    Except ErrCode CoreState :=
  if ¬ ops.keyValid then .error .noKey
  else if p.inBufBytes < ops.inLen.toNat then .error .invalidLength
  else if ¬ legalCiphertextLen ops.inLen.toNat then .error .invalidCiphertextLength
  else
    match decryptChained ops.inBytes ops.sched ops.rounds with
    | .badLength => .error .invalidCiphertextLength
    | .badPadding => .error .invalidPadding
    | .plain m => .ok (c.deliver m)

/-- `Complete` for CBC_ENC (R112, R204). With IV_MODE = 0, checks passed and no offer on the port, the
step is not enabled: the core waits, still busy, and nothing changes (R112, R267; log entry 6). A
failed CBC_ENC takes no draw (R203).

DESIGN CHOICE (log entry 20): the draw is the offer that stands on the port at the core's turn, the
`ent` of R112's `Complete(ent)`. R66 captures "in the cycle where both are 1", and cycles are not
modelled (R19): an offer that the source made and then replaced or withdrew before the core's turn is
not drawn, and the wait goes on. -/
def completeCbcEnc (p : Params) (s : State) : Host.Outcome State Fault Refusal :=
  match cbcEncCheck (s.core.operands p) p with
  | some e => s.finish true (.error e)
  | none =>
    match selectIv (s.core.operands p) s.entropy with
    | none => .next s
    | some iv =>
      State.finish { s with entropy := offerAfter (s.core.operands p) s.entropy } true
        (.ok (cbcEncrypt (s.core.operands p) iv s.core))

/-- `Complete` for CBC_DEC (R112, R205). -/
def completeCbcDec (p : Params) (s : State) : Host.Outcome State Fault Refusal :=
  s.finish true (cbcDecrypt (s.core.operands p) s.core p)

/-- CBC_ENC (R204). Which offer it draws when the source changes its lines during the wait is a DESIGN
CHOICE (log entry 20): the one standing at the core's turn. -/
def execCbcEnc (s : State) : Host.Outcome State Fault Refusal :=
  completeCbcEnc Config.params s

/-- CBC_DEC (R205). -/
def execCbcDec (s : State) : Host.Outcome State Fault Refusal :=
  completeCbcDec Config.params s

/-- The output `ent_ready`: raised while a CBC_ENC with IV_MODE = 0 whose checks pass is running
(R60, R66). -/
def CoreState.entReady (c : CoreState) (p : Params := Config.params) : Bool :=
  match c.pending with
  | none => false
  | some q =>
    match decode q.word with
    | .ok .cbcEnc => (cbcEncCheck q.ops p).isNone && !q.ops.ctrl.ivMode
    | _ => false

end Sys2Proof.Machine
end

