-- ==== Sys2Proof/Machine/KeySchedule.lean ====
section
/-!
DEFINITION. The key schedule (41_key_schedule.md R140 to R143) and its commands KEY_EXPAND (R145)
and KEY_CLEAR (R146).
-/

namespace Sys2Proof.Machine

/-- OR key byte `K[k]` into its word, shifted up by 8 (R140). -/
def packByte (kb : Byte × Nat) (l : List Word) : List Word :=
  l.set (kb.2 / 4) ((l.getD (kb.2 / 4) 0#32 <<< 8) ||| kb.1.setWidth 32)

/-- Key packing into `c = ceil(b/4)` words, bytes taken from last to first (R140). -/
def packKey (key : List Byte) : List Word :=
  key.zipIdx.foldr packByte (List.replicate ((key.length + 3) / 4) 0#32)

/-- n words from x on, each `Q32` above the one before (R141). -/
def scheduleFrom : Nat → Word → List Word
  | 0, _ => []
  | n + 1, x => x :: scheduleFrom n (x + Config.q32)

/-- Schedule initialisation for r rounds: `t = 2r + 4` words (R141). -/
def initSchedule (r : Nat) : List Word :=
  scheduleFrom (2 * r + 4) Config.p32

/-- The working registers of the mixing loop (R142; R22: not state). -/
structure Mixer where
  a : Word
  b : Word
  i : Nat
  j : Nat
  s : List Word
  l : List Word
deriving DecidableEq, Repr

/-- One mixing iteration. The second update reads the A that the first has just written (R142, N7). -/
def mixStep (m : Mixer) : Mixer :=
  let a := rotl (m.s.getD m.i 0#32 + m.a + m.b) 3
  let b := rotl (m.l.getD m.j 0#32 + a + m.b) (a + m.b).toNat
  { a := a
    b := b
    i := (m.i + 1) % m.s.length
    j := (m.j + 1) % m.l.length
    s := m.s.set m.i a
    l := m.l.set m.j b }

/-- n mixing iterations. -/
def mixLoop : Nat → Mixer → Mixer
  | 0, m => m
  | n + 1, m => mixLoop n (mixStep m)

/-- The number of mixing iterations, `v = 3 * max(c, t)` (R142). -/
def mixCount (keyLen r : Nat) : Nat :=
  3 * max ((keyLen + 3) / 4) (2 * r + 4)

/-- `expand(K, r)`: the `2r+4` words of the schedule (R143). -/
def expand (key : List Byte) (r : Nat) : List Word :=
  (mixLoop (mixCount key.length r)
    { a := 0#32, b := 0#32, i := 0, j := 0, s := initSchedule r, l := packKey key }).s

/-- The key lengths the core accepts (R144): of the three, those that fit in C_MAX words (R9; log entry
18). -/
def legalKeyLen (b : Nat) (p : Params := Config.params) : Bool :=
  (b == 16 || b == 24 || b == 32) && decide (b ≤ 4 * p.cMax)

/-- The round counts the core accepts: positive (R144), and at most R_MAX (R9; log entry 18). -/
def legalRounds (r : Nat) (p : Params := Config.params) : Bool :=
  r != 0 && decide (r ≤ p.rMax)

/-- `Exec(KEY_EXPAND, ops)` (R145): the length check first, then the rounds (R229). -/
def keyExpand (ops : Operands) (c : CoreState) (p : Params := Config.params) :
    Except ErrCode CoreState :=
  if ¬ legalKeyLen ops.ctrl.keyLen.toNat p then .error .invalidKeyLength
  else if ¬ legalRounds ops.ctrl.rounds.toNat p then .error .invalidRounds
  else .ok { c with
    sched := storeSchedule c.sched (expand ops.keyBytes ops.ctrl.rounds.toNat)
    active := { schedR := ops.ctrl.rounds, schedKLen := ops.ctrl.keyLen }
    status := { c.status with keyValid := true } }

/-- `Exec(KEY_CLEAR, ops)` (R146): it always succeeds. -/
def keyClear (c : CoreState) (p : Params := Config.params) : CoreState :=
  { c with
    sched := List.replicate p.tMax 0#32
    key := Vector.replicate 8 0#32
    active := { schedR := 0#8, schedKLen := 0#6 }
    status := { c.status with keyValid := false } }

/-- `Complete` for KEY_EXPAND (R112, R145). -/
def completeKeyExpand (p : Params) (s : State) : Host.Outcome State Fault Refusal :=
  s.finish false (keyExpand (s.core.operands p) s.core p)

/-- `Complete` for KEY_CLEAR (R112, R146). -/
def completeKeyClear (p : Params) (s : State) : Host.Outcome State Fault Refusal :=
  s.finish false (.ok (keyClear s.core p))

/-- KEY_EXPAND (R145). -/
def execKeyExpand (s : State) : Host.Outcome State Fault Refusal :=
  completeKeyExpand Config.params s

/-- KEY_CLEAR (R146). -/
def execKeyClear (s : State) : Host.Outcome State Fault Refusal :=
  completeKeyClear Config.params s

end Sys2Proof.Machine
end

