-- ==== Sys2Proof/Machine/Dispatch.lean ====
section
/-!
DEFINITION. One arm per command (30_encoding.md R91), each one direct call of its meaning. A meaning
is the completion step `Complete` of R112 for that command.
-/

namespace Sys2Proof.Machine

def exec (i : Instr) (s : State) : Host.Outcome State Fault Refusal :=
  match i with
  | .keyExpand => Sys2Proof.Machine.execKeyExpand s
  | .keyClear => Sys2Proof.Machine.execKeyClear s
  | .blkEnc => Sys2Proof.Machine.execBlkEnc s
  | .blkDec => Sys2Proof.Machine.execBlkDec s
  | .cbcEnc => Sys2Proof.Machine.execCbcEnc s
  | .cbcDec => Sys2Proof.Machine.execCbcDec s
  | .pad => Sys2Proof.Machine.execPad s
  | .unpad => Sys2Proof.Machine.execUnpad s

end Sys2Proof.Machine
end

