-- ==== Sys2Proof/Machine/Bus.lean ====
section
/-!
DEFINITION. The bus slave: the register map (10_state.md R23), the regions of the window
(20_memory.md R62), and `MemRead` (R70) and `MemWrite` (R71), whose tests stand in the order the spec
gives them, because that order settles which response an access gets.
-/

namespace Sys2Proof.Machine

/-- The registers of the map (R23). -/
inductive Reg where
  | id
  | ctrl
  | cmd
  | status
  | irqEn
  | inLen
  | outLen
  | active
  | key (i : Fin 8)
  | blk (i : Fin 4)
  | iv (i : Fin 4)
deriving DecidableEq, Repr

/-- The regions of the window (R62); a buffer byte is named by its index in the buffer. -/
inductive Region where
  | reg (r : Reg)
  | inBuf (k : Nat)
  | outBuf (k : Nat)
  | reserved
deriving DecidableEq, Repr

/-- The number of bytes of an access (R61). -/
def widthBytes : Width → Nat
  | .b1 => 1
  | .b2 => 2
  | .b4 => 4

/-- The register at word `a / 4` of the map (R23). -/
def regAt : Nat → Option Reg
  | 0 => some .id
  | 1 => some .ctrl
  | 2 => some .cmd
  | 3 => some .status
  | 4 => some .irqEn
  | 5 => some .inLen
  | 6 => some .outLen
  | 7 => some .active
  | 8 => some (.key 0)
  | 9 => some (.key 1)
  | 10 => some (.key 2)
  | 11 => some (.key 3)
  | 12 => some (.key 4)
  | 13 => some (.key 5)
  | 14 => some (.key 6)
  | 15 => some (.key 7)
  | 16 => some (.blk 0)
  | 17 => some (.blk 1)
  | 18 => some (.blk 2)
  | 19 => some (.blk 3)
  | 20 => some (.iv 0)
  | 21 => some (.iv 1)
  | 22 => some (.iv 2)
  | 23 => some (.iv 3)
  | _ => none

/-- Whether a register is there: of the KEY registers, the first C_MAX (R9; log entry 18). -/
def Reg.present (p : Params) : Reg → Bool
  | .key i => decide (i.val < p.cMax)
  | .id | .ctrl | .cmd | .status | .irqEn | .inLen | .outLen | .active | .blk _ | .iv _ => true

/-- The region of an offset (R62, R68). InBuf starts at `0x1000` and OutBuf at `0x2000`, each with the
bytes its parameter gives it (R9, R37, R38); what lies above a smaller buffer is reserved (log entry
18). -/
def regionAt (a : Offset) (p : Params := Config.params) : Region :=
  if a.toNat < 0x0060 then
    match regAt (a.toNat / 4) with
    | some r => if r.present p then .reg r else .reserved
    | none => .reserved
  else if a.toNat < 0x1000 then .reserved
  else if a.toNat < 0x2000 then
    if a.toNat < 0x1000 + p.inBufBytes then .inBuf (a.toNat - 0x1000) else .reserved
  else if a.toNat < 0x3000 then
    if a.toNat < 0x2000 + p.outBufBytes then .outBuf (a.toNat - 0x2000) else .reserved
  else .reserved

/-- `ReadLocked(a)` on registers (R70, R114): IN_LEN, OUT_LEN, KEY, BLK and IV. -/
def Reg.readLocked : Reg → Bool
  | .inLen | .outLen | .key _ | .blk _ | .iv _ => true
  | .id | .ctrl | .cmd | .status | .irqEn | .active => false

/-- `WriteLocked(a)` on registers (R71, R114): CTRL, IN_LEN, KEY, BLK and IV. -/
def Reg.writeLocked : Reg → Bool
  | .ctrl | .inLen | .key _ | .blk _ | .iv _ => true
  | .id | .cmd | .status | .irqEn | .outLen | .active => false

/-- An OKAY response with a value. -/
def okayWith (v : Word) : Response := { kind := .okay, value := v }

/-- An ERROR response; a refused read returns 0 (R64, R65, R68, R114). -/
def errorResponse : Response := { kind := .error, value := 0#32 }

/-- `RegRead` (R70): the register's value with reserved bits 0; CMD and KEY read 0 (R26, R32). -/
def regRead (c : CoreState) : Reg → Word
  | .id => Config.idValue
  | .ctrl => c.ctrl.toWord
  | .cmd => 0#32
  | .status => c.status.toWord
  | .irqEn => bitAt c.doneIe 0
  | .inLen => c.inLen
  | .outLen => c.outLen
  | .active => c.active.toWord
  | .key _ => 0#32
  | .blk i => quadGet c.blk i
  | .iv i => quadGet c.iv i

/-- `MemRead(a, n)` (R70): the response and the core afterwards. The only state a read can change is
LOCKERR, and only when it is refused. -/
def memRead (a : Offset) (n : Width) (c : CoreState) (p : Params := Config.params) :
    Response × CoreState :=
  if a.toNat % widthBytes n ≠ 0 then (errorResponse, c)
  else
    match regionAt a p with
    | .reserved => (errorResponse, c)
    | .reg r =>
      if n ≠ .b4 then (errorResponse, c)
      else if c.status.busy && r.readLocked then (errorResponse, c.setLockErr)
      else (okayWith (regRead c r), c)
    | .inBuf k =>
      if c.status.busy then (errorResponse, c.setLockErr)
      else (okayWith (leValue (Memory.bytes c.inBuf k (widthBytes n))), c)
    | .outBuf k =>
      if c.status.busy then (errorResponse, c.setLockErr)
      else (okayWith (leValue ((List.range' k (widthBytes n)).map c.outByte)), c)

/-- A write of CMD: accepted while idle (R110); discarded while busy, with LOCKERR set and an ERROR
response (R115). -/
def cmdWrite (v : Word) (c : CoreState) (p : Params := Config.params) : Response × CoreState :=
  if c.status.busy then (errorResponse, c.setLockErr)
  else (okayWith 0#32, c.accept v p)

/-- A write of a register that is neither locked now nor read-only (R71): `RegWrite` stores the
writable fields (R25, R29, R32 to R34) and ignores reserved bits (R40). -/
def regStore (r : Reg) (v : Word) (c : CoreState) : CoreState :=
  match r with
  | .ctrl => { c with ctrl := Ctrl.ofWord v }
  | .status => { c with status := c.status.writeOneToClear v }
  | .irqEn => { c with doneIe := v.getLsbD 0 }
  | .inLen => { c with inLen := v }
  | .key i => { c with key := c.key.set i v }
  | .blk i => { c with blk := quadSet c.blk i v }
  | .iv i => { c with iv := quadSet c.iv i v }
  | .id => c
  | .cmd => c
  | .outLen => c
  | .active => c

/-- The read-only registers (R69). -/
def Reg.readOnly : Reg → Bool
  | .id | .outLen | .active => true
  | .ctrl | .cmd | .status | .irqEn | .inLen | .key _ | .blk _ | .iv _ => false

/-- `MemWrite(a, n, v)` (R71): the response and the core afterwards. -/
def memWrite (a : Offset) (n : Width) (v : Word) (c : CoreState) (p : Params := Config.params) :
    Response × CoreState :=
  if a.toNat % widthBytes n ≠ 0 then (errorResponse, c)
  else
    match regionAt a p with
    | .reserved => (errorResponse, c)
    | .reg r =>
      if n ≠ .b4 then (errorResponse, c)
      else if r = .cmd then cmdWrite v c p
      else if r.readOnly then (errorResponse, c)
      else if c.status.busy && r.writeLocked then (errorResponse, c.setLockErr)
      else (okayWith 0#32, regStore r v c)
    | .inBuf k =>
      if c.status.busy then (errorResponse, c.setLockErr)
      else (okayWith 0#32,
        { c with inBuf := Memory.write c.inBuf k (laneBytes v (widthBytes n)) })
    | .outBuf _ =>
      if c.status.busy then (errorResponse, c.setLockErr)
      else (errorResponse, c)

/-- One bus transaction (R61). -/
def transact (t : Txn) (c : CoreState) (p : Params := Config.params) : Response × CoreState :=
  match t with
  | .read a n => memRead a n c p
  | .write a n v => memWrite a n v c p

/-- The platform's decoding of an address into an offset from BASE; addresses outside the window
never reach the core (R61, U9). -/
def offsetOf (addr : Nat) (p : Params := Config.params) : Option Offset :=
  if p.base ≤ addr ∧ addr < p.base + p.windowBytes then
    some (BitVec.ofNat 14 (addr - p.base))
  else none

/-- The access a host makes at an address, as the core sees it: it reaches the core if the data lines
carry its n bytes and its address is in the window (R9, R61, R63). -/
def hostAccess (addr : Nat) (n : Width) (data : Option Word) (p : Params := Config.params) :
    Option Txn :=
  if 8 * widthBytes n ≤ p.busBits then
    (offsetOf addr p).map fun a =>
      match data with
      | none => .read a n
      | some v => .write a n v
  else none

end Sys2Proof.Machine
end

