-- ==== Sys2Proof/Machine/Environment.lean ====
section
/-!
DEFINITION. What the moves of the host, of the entropy source and of the reset pin do to the machine
(00_scope.md R18), and how the core's turn finds the command to run (10_state.md R21: there is no
program counter; PENDING holds the command).
-/

namespace Sys2Proof.Machine

/-- A bus transaction (R61, R74): it takes full effect or none, and answers. While `rst_n = 0` it
has no step (R250, U12; log entry 7). -/
def State.applyBus (s : State) (t : Txn) (p : Params := Config.params) :
    Host.Outcome State Fault Refusal :=
  if s.rstN then
    .next { s with core := (transact t s.core p).2, resp := some (transact t s.core p).1 }
  else .fault .busInReset

/-- The entropy source drives its lines (R66), busy or not, in reset or not; nothing else changes.
DESIGN CHOICE (log entry 20): the lines as last driven replace what stood on them before, so an offer
that no turn of the core met is gone. -/
def State.applyEntropy (s : State) (offer : Option EntropyWord) : State :=
  { s with entropy := offer }

/-- `rst_n` falls (R250, R251): the whole record becomes the reset record, whatever the core was
doing, and the InBuf bytes become fresh draws. No bus response stands (log entry 17). -/
def State.applyResetLow (s : State) (draws : List Host.Cell) (p : Params := Config.params) :
    State :=
  { s with
    core := CoreState.reset (Memory.ofDraws draws p.inBufBytes) p
    rstN := false
    resp := none }

/-- `rst_n` rises. At its release the record takes the reset values too (R250), the InBuf draws of
its fall standing (U3). With `rst_n` already 1 nothing is released. -/
def State.applyResetHigh (s : State) (p : Params := Config.params) : State :=
  if s.rstN then s else { s with core := CoreState.reset s.core.inBuf p, rstN := true }

/-- The next move: the head of `inputs`, or, when the host is silent, the core's turn (R117; log
entry 3). -/
def State.nextMove (s : State) : Input :=
  s.inputs.headD .core

/-- The state in which the next move is made: that move is used up. -/
def State.afterMove (s : State) : State :=
  { s with inputs := s.inputs.tail }

/-- The word the core's turn completes: that of PENDING, out of reset (R112, R250). -/
def State.pendingWord (s : State) : Option Word :=
  if s.rstN then s.core.pending.map Pending.word else none

/-- The state of a core that has just accepted the word, whatever it was doing: what a host's CMD
write makes of an idle one (R110; log entry 4). -/
def State.withPendingWord (s : State) (w : Word) (p : Params := Config.params) : State :=
  { s with core := s.core.accept w p, rstN := true }

/-- Give the core the very next turn: it has it already when the host is silent (log entry 4). -/
def State.withCoreTurn (s : State) : State :=
  match s.inputs with
  | [] => s
  | i :: rest => { s with inputs := Input.core :: i :: rest }

/-- The core's turn (R112), with the meanings of the commands given: the pending command completes by
its meaning; an illegal word completes with ILLEGAL_COMMAND (R227); with nothing pending, or in reset,
the core does nothing (R240). -/
def coreTurn (run : Instr → State → Host.Outcome State Fault Refusal) (s : State) :
    Host.Outcome State Fault Refusal :=
  match s.pendingWord with
  | none => .next s
  | some w =>
    match decode w with
    | .ok i => run i s
    | .error _ => s.finishIllegal

/-- One move, with the parameters and the meanings of the commands given. -/
def applyInput (p : Params) (run : Instr → State → Host.Outcome State Fault Refusal) (i : Input)
    (s : State) : Host.Outcome State Fault Refusal :=
  match i with
  | .bus t => s.applyBus t p
  | .core => coreTurn run s
  | .entropy offer => .next (s.applyEntropy offer)
  | .resetLow draws => .next (s.applyResetLow draws p)
  | .resetHigh => .next (s.applyResetHigh p)

end Sys2Proof.Machine
end

