-- ==== Sys2Proof/Machine/Step.lean ====
section
/-!
DEFINITION. One step of the machine: the next move of `inputs`, or, when the host is silent, the
core's turn (93 U19; log entry 3).
-/

namespace Sys2Proof.Machine

/-- One step of the machine, with the parameters of R9 at their values. -/
def step (s : State) : Host.Outcome State Fault Refusal :=
  applyInput Config.params exec s.nextMove s.afterMove

/-- The state with an opcode-table word accepted and the core's turn next (log entry 4). -/
def State.withFetchWord (s : State) (nbits w : Nat) : State :=
  (s.withPendingWord (BitVec.ofNat 32 (w % 2 ^ nbits))).withCoreTurn

end Sys2Proof.Machine
end

