-- ==== Sys2Proof/Machine/Parametric.lean ====
section
/-!
DEFINITION. The machine with the parameters of 00_scope.md R9 as an argument: "The model takes each as
an argument that defaults to the value given." `exec` and `step`, whose types are fixed, are these at
the default. What a parameter other than R9's value does: log entry 18.
-/

namespace Sys2Proof.Machine

/-- The meaning of each command under given parameters. -/
def execWith (p : Params) (i : Instr) (s : State) : Host.Outcome State Fault Refusal :=
  match i with
  | .keyExpand => completeKeyExpand p s
  | .keyClear => completeKeyClear p s
  | .blkEnc => completeBlkEnc p s
  | .blkDec => completeBlkDec p s
  | .cbcEnc => completeCbcEnc p s
  | .cbcDec => completeCbcDec p s
  | .pad => completePad p s
  | .unpad => completeUnpad p s

/-- One step under given parameters. -/
def stepWith (p : Params) (s : State) : Host.Outcome State Fault Refusal :=
  applyInput p (execWith p) s.nextMove s.afterMove

/-- The machine right after reset under given parameters (R41). -/
def State.resetWith (p : Params) : State :=
  { State.reset with core := CoreState.reset [] p }

end Sys2Proof.Machine
end

