-- ==== Sys2Proof/Safety.lean ====
section
/-!
DEFINITION. The terms in which claims speak: when the core is idle or in its turn, what a safe run
is, and the invariants the spec states of the core's record.
-/

namespace Sys2Proof.Machine

/-- The sequencer's control state (R21): BUSY exactly while PENDING holds a command. -/
def CoreState.Sequenced (c : CoreState) : Prop :=
  c.status.busy = c.pending.isSome

/-- Captured operands are the operands as they stand: the two readings of R111 agree. -/
def CoreState.Coherent (c : CoreState) (p : Params := Config.params) : Prop :=
  ∀ q, c.pending = some q → q.ops = c.capture p

/-- What the STATUS flags imply of each other (R27, R110, R220): ERRCODE is a code that errors
produce, it is 0 without ERR, and a running command shows neither DONE nor ERR. -/
def CoreState.StatusLegal (c : CoreState) : Prop :=
  c.status.errCode.toNat ≤ 7 ∧
  (c.status.err = false → c.status.errCode = 0#4) ∧
  (c.status.busy = true → c.status.done = false ∧ c.status.err = false)

/-- What ACTIVE holds (R31, R9). -/
def CoreState.ActiveLegal (c : CoreState) (p : Params := Config.params) : Prop :=
  (c.status.keyValid = true →
    1 ≤ c.active.schedR.toNat ∧ c.active.schedR.toNat ≤ p.rMax ∧
      (c.active.schedKLen = 16#6 ∨ c.active.schedKLen = 24#6 ∨ c.active.schedKLen = 32#6)) ∧
  (c.status.keyValid = false → c.active = { schedR := 0#8, schedKLen := 0#6 })

/-- The active schedule is the expansion of some key of the recorded length for the recorded round
count (R36). -/
def CoreState.ScheduleValid (c : CoreState) : Prop :=
  c.status.keyValid = true →
    ∃ key : List Byte, key.length = c.active.schedKLen.toNat ∧
      c.sched.take (2 * c.active.schedR.toNat + 4) = expand key c.active.schedR.toNat

/-- The buffers are in canonical form, and the schedule memory has T_MAX words (R35, R37, R38). -/
def CoreState.MemoriesWf (c : CoreState) (p : Params := Config.params) : Prop :=
  Memory.wf c.inBuf p.inBufBytes ∧ Memory.wf c.outBuf p.outBufBytes ∧ c.sched.length = p.tMax

/-- `OUT_LEN <= OUT_BUF_BYTES` (R30). -/
def CoreState.OutLenBounded (c : CoreState) (p : Params := Config.params) : Prop :=
  c.outLen.toNat ≤ p.outBufBytes

/-- While `rst_n = 0` the record holds the reset values (R250). -/
def State.ResetHeld (s : State) (p : Params := Config.params) : Prop :=
  s.rstN = false → s.core = CoreState.reset s.core.inBuf p

/-- Every invariant the spec states of the machine, together, under given parameters (R9). -/
structure State.Inv (s : State) (p : Params := Config.params) : Prop where
  sequenced : s.core.Sequenced
  coherent : s.core.Coherent p
  statusLegal : s.core.StatusLegal
  activeLegal : s.core.ActiveLegal p
  scheduleValid : s.core.ScheduleValid
  memoriesWf : s.core.MemoriesWf p
  outLenBounded : s.core.OutLenBounded p
  resetHeld : s.ResetHeld p

/-- It is the core's turn to complete this command (R112): the next move is the core's, and PENDING
holds a word that decodes to it, out of reset. -/
def State.Completes (s : State) (i : Instr) : Prop :=
  s.nextMove = .core ∧ ∃ w, s.pendingWord = some w ∧ decode w = .ok i

/-- The state in which a command completed with an error of this code (R228): STATUS says so, a
buffer-producing command's OUT_LEN is 0, PENDING is none, and nothing else changed. -/
def State.failed (s : State) (bufferProducing : Bool) (code : BitVec 4) : State :=
  { s with core := { s.core with
      status := { s.core.status with err := true, errCode := code, done := true, busy := false }
      outLen := if bufferProducing then 0#32 else s.core.outLen
      pending := none } }

/-- OutBuf and OUT_LEN hold this output (R183, R184, R204, R205), and no byte of OutBuf outside it
changed: a DESIGN CHOICE (log entry 10), R38 leaving the bytes at and above OUT_LEN unspecified. -/
def OutputDelivered (before after : CoreState) (out : List Byte) : Prop :=
  after.outLen = BitVec.ofNat 32 out.length ∧
  (∀ k, k < out.length → Memory.read after.outBuf k = out.getD k 0#8) ∧
  (∀ k, out.length ≤ k → Memory.read after.outBuf k = Memory.read before.outBuf k)

/-- The message a finished buffer-producing command left, `OutBuf[0 .. OUT_LEN-1]` (R266). -/
def CoreState.output (c : CoreState) : List Byte :=
  Memory.bytes c.outBuf 0 c.outLen.toNat

/-- The core without its key material: KEY, and the KEY that a running command captured, made 0. -/
def CoreState.withoutKey (c : CoreState) : CoreState :=
  { c with
    key := Vector.replicate 8 0#32
    pending := c.pending.map fun p =>
      { p with ops := { p.ops with key := Vector.replicate 8 0#32 } } }

/-- A step is safe if it is no fault: the machine goes on. -/
def State.StepSafe (s : State) : Prop :=
  ∃ t, step s = .next t

end Sys2Proof.Machine
end

