-- ==== Sys2Proof/Certificates/Slice0/Obligations.lean ====
section
/-! DEFINITION. The statements for the provers; OBLIGATIONS.json lists them. -/

open Sys2Proof Sys2Proof.Machine

/-! ### Encoding -/

/-- The OP map (R91): the eight command words, and the reserved values of OP. -/
def Obligations.CommandWordsDecode : Prop :=
  decode 0x00000001#32 = .ok .keyExpand ∧ decode 0x00000002#32 = .ok .keyClear ∧
  decode 0x00000003#32 = .ok .blkEnc ∧ decode 0x00000004#32 = .ok .blkDec ∧
  decode 0x00000005#32 = .ok .cbcEnc ∧ decode 0x00000006#32 = .ok .cbcDec ∧
  decode 0x00000007#32 = .ok .pad ∧ decode 0x00000008#32 = .ok .unpad ∧
  decode 0x00000000#32 = .error .opReserved ∧ decode 0x00000009#32 = .error .opReserved ∧
  decode 0x0000000A#32 = .error .opReserved ∧ decode 0x0000000B#32 = .error .opReserved ∧
  decode 0x0000000C#32 = .error .opReserved ∧ decode 0x0000000D#32 = .error .opReserved ∧
  decode 0x0000000E#32 = .error .opReserved ∧ decode 0x0000000F#32 = .error .opReserved

/-- Decode and encode agree on every one of the 2^32 words, and the words that are no command are
exactly those with RSV or OP out of range (R94). -/
def Obligations.DecodeEncodeAgree : Prop :=
  ∀ w : Word,
    (∀ i, decode w = .ok i ↔ encode i = w) ∧
    ((∃ e, decode w = .error e) ↔
      w.extractLsb' 4 28 ≠ 0#28 ∨ w.extractLsb' 0 4 = 0#4 ∨ 9 ≤ (w.extractLsb' 0 4).toNat)

/-- A table word laid out as its four bytes, lowest lane first, decodes as the word does (R63, R90). -/
def Obligations.TableWordsDecodeAlike : Prop :=
  ∀ w : Nat, w < 2 ^ 32 → decodeTableWord 32 w = (decode (BitVec.ofNat 32 w)).toOption

/-! ### The step -/

/-- When the core has its turn, whether the host is silent or the turn is listed, and PENDING holds
a word that decodes to i, the step is exec of i, the turn being used up (R21, R112; the list of
moves is the model's, log entry 3). -/
def Obligations.StepRunsPendingCommand : Prop :=
  ∀ (s : State) (p : Pending) (i : Instr) (rest : List Input),
    s.rstN = true → s.core.pending = some p → decode p.word = .ok i →
    (s.inputs = [] → step s = exec i s) ∧
    (s.inputs = .core :: rest → step s = exec i { s with inputs := rest })

/-- A table word put where the core takes its next command runs as exec of its command, on the
operands captured there (log entry 4). -/
def Obligations.FetchedWordRuns : Prop :=
  ∀ (s : State) (w : Nat) (i : Instr), w < 2 ^ 32 → decode (BitVec.ofNat 32 w) = .ok i →
    step (s.withFetchWord 32 w) =
      exec i { s with
        rstN := true
        core := { s.core with
          status := { s.core.status with busy := true, done := false, err := false, errCode := 0#4 }
          pending := some { word := BitVec.ofNat 32 w, ops := s.core.capture } } }

/-- Out of reset a bus transaction takes its whole effect in one step and leaves its response
(R61, R74). A move of the entropy source sets the port and leaves the core, `rst_n` and the response
as they were (R66). That the port shows only what was last driven, in reset too, is the model's choice
(log entries 17 and 20), as the list of moves is (log entry 3). -/
def Obligations.BusAndEntropyMoves : Prop :=
  ∀ (s : State) (rest : List Input),
    (∀ t : Txn, s.rstN = true → s.inputs = .bus t :: rest →
      step s = .next { s with
        inputs := rest, core := (transact t s.core).2, resp := some (transact t s.core).1 }) ∧
    (∀ offer : Option EntropyWord, s.inputs = .entropy offer :: rest →
      step s = .next { s with inputs := rest, entropy := offer })

/-- Writing a command's word to CMD while idle, then giving the core its turn, runs exec of the
command on the operands as they stood at the write (R110, R111, R112; the list of moves is the
model's, log entry 3). -/
def Obligations.AcceptedCommandCompletesNext : Prop :=
  ∀ (s : State) (i : Instr) (rest : List Input),
    s.rstN = true → s.core.status.busy = false →
    s.inputs = .bus (.write 0x0008#14 .b4 (encode i)) :: .core :: rest →
    ∃ s₁, step s = .next s₁ ∧ s₁.resp = some { kind := .okay, value := 0#32 } ∧
      s₁.core.operands = s.core.capture ∧
      s₁.core.status.busy = true ∧ s₁.core.status.done = false ∧ s₁.core.status.err = false ∧
      step s₁ = exec i { s₁ with inputs := rest }

/-- Acceptance (R110): any word written to CMD while idle is accepted, and nothing but STATUS and
PENDING changes. That PENDING keeps the word, to be decoded at completion, is the model's choice (log
entry 9). -/
def Obligations.CmdWriteWhileIdleAccepted : Prop :=
  ∀ (v : Word) (c : CoreState), c.status.busy = false →
    memWrite 0x0008#14 .b4 v c =
      ({ kind := .okay, value := 0#32 },
       { c with
         status := { c.status with busy := true, done := false, err := false, errCode := 0#4 }
         pending := some { word := v, ops := c.capture } })

/-- A CMD write while busy is discarded, answers ERROR and sets LOCKERR (R115). -/
def Obligations.CmdWriteWhileBusyDiscarded : Prop :=
  ∀ (v : Word) (c : CoreState), c.status.busy = true →
    memWrite 0x0008#14 .b4 v c =
      ({ kind := .error, value := 0#32 }, { c with status := { c.status with lockErr := true } })

/-- In the core's turn, whether the host is silent or the turn is listed, an illegal command word
completes with ILLEGAL_COMMAND, code 7, and nothing but STATUS (and PENDING) changes: OUT_LEN does not
(R227). The list of moves is the model's (log entry 3). -/
def Obligations.IllegalWordCompletes : Prop :=
  ∀ (s : State) (p : Pending),
    s.rstN = true → s.core.pending = some p → s.nextMove = .core →
    (p.word.extractLsb' 4 28 ≠ 0#28 ∨ p.word.extractLsb' 0 4 = 0#4 ∨
      9 ≤ (p.word.extractLsb' 0 4).toNat) →
    step s = .next { s with
      inputs := s.inputs.tail
      core := { s.core with
        status := { s.core.status with err := true, errCode := 7#4, done := true, busy := false }
        pending := none } }

/-- With nothing pending the core's turn changes nothing: an idle core keeps all its state (R240; the
list of moves is the model's, log entry 3). -/
def Obligations.IdleCoreTurnChangesNothing : Prop :=
  ∀ (s : State) (rest : List Input), s.core.pending = none →
    (s.inputs = [] → step s = .next s) ∧
    (s.inputs = .core :: rest → step s = .next { s with inputs := rest })

/-- The core's turn ends every command that does not wait for entropy: the next state is idle, with
DONE set (R112, R117; the list of moves is the model's, log entry 3). -/
def Obligations.CompletionEndsCommand : Prop :=
  ∀ (s : State) (p : Pending), s.rstN = true → s.core.pending = some p → s.nextMove = .core →
    (s.core.entReady = false ∨ s.entropy ≠ none) →
    ∃ t, step s = .next t ∧ t.core.status.busy = false ∧ t.core.status.done = true ∧
      t.core.pending = none ∧ t.inputs = s.inputs.tail

/-! ### The key schedule -/

/-- KEY_EXPAND (R145): success, and its two errors in their order, which leave S, ACTIVE, KEY_VALID
and KEY as they were. The new schedule has `2r+4` words; that the words above them are kept is the
model's choice for values that nothing observes (R35, log entry 1). -/
def Obligations.KeyExpandOutcomes : Prop :=
  ∀ s : State,
    ((s.core.operands.ctrl.keyLen = 16#6 ∨ s.core.operands.ctrl.keyLen = 24#6 ∨
        s.core.operands.ctrl.keyLen = 32#6) →
      s.core.operands.ctrl.rounds ≠ 0#8 →
      exec .keyExpand s = .next { s with core := { s.core with
        sched :=
          expand
            ((List.range s.core.operands.ctrl.keyLen.toNat).map fun k =>
              (s.core.operands.key.toList.getD (k / 4) 0#32).extractLsb' (8 * (k % 4)) 8)
            s.core.operands.ctrl.rounds.toNat
          ++ s.core.sched.drop (2 * s.core.operands.ctrl.rounds.toNat + 4)
        active := { schedR := s.core.operands.ctrl.rounds,
                    schedKLen := s.core.operands.ctrl.keyLen }
        status := { s.core.status with keyValid := true, done := true, busy := false }
        pending := none } }) ∧
    ((s.core.operands.ctrl.keyLen ≠ 16#6 ∧ s.core.operands.ctrl.keyLen ≠ 24#6 ∧
        s.core.operands.ctrl.keyLen ≠ 32#6) →
      exec .keyExpand s = .next (s.failed false 1#4)) ∧
    ((s.core.operands.ctrl.keyLen = 16#6 ∨ s.core.operands.ctrl.keyLen = 24#6 ∨
        s.core.operands.ctrl.keyLen = 32#6) →
      s.core.operands.ctrl.rounds = 0#8 →
      exec .keyExpand s = .next (s.failed false 4#4))

/-- KEY_CLEAR (R146) always succeeds: S, KEY and ACTIVE become 0 and KEY_VALID is cleared. -/
def Obligations.KeyClearOutcome : Prop :=
  ∀ s : State,
    exec .keyClear s = .next { s with core := { s.core with
      sched := List.replicate 514 0#32
      key := Vector.replicate 8 0#32
      active := { schedR := 0#8, schedKLen := 0#6 }
      status := { s.core.status with keyValid := false, done := true, busy := false }
      pending := none } }

/-- Key packing (R140): for the legal lengths the packed words are the key's words, four bytes each
in little-endian order, and packing the key bytes of KEY_EXPAND gives the KEY registers back. -/
def Obligations.KeyPackingIsLittleEndian : Prop :=
  (∀ key : List Byte, key.length = 16 ∨ key.length = 24 ∨ key.length = 32 →
    (packKey key).length = key.length / 4 ∧
    ∀ w, w < key.length / 4 → (packKey key).getD w 0#32 =
      (key.getD (4 * w) 0#8).setWidth 32 ||| (key.getD (4 * w + 1) 0#8).setWidth 32 <<< 8
        ||| (key.getD (4 * w + 2) 0#8).setWidth 32 <<< 16
        ||| (key.getD (4 * w + 3) 0#8).setWidth 32 <<< 24) ∧
  (∀ ops : Operands, ops.ctrl.keyLen = 16#6 ∨ ops.ctrl.keyLen = 24#6 ∨ ops.ctrl.keyLen = 32#6 →
    packKey ops.keyBytes = ops.key.toList.take (ops.ctrl.keyLen.toNat / 4))

/-- Schedule initialisation (R141): `2r+4` words, the first `0xB7E15163`, each next
`0x9E3779B9` above the one before. -/
def Obligations.ScheduleInitialisation : Prop :=
  ∀ r : Nat, (initSchedule r).length = 2 * r + 4 ∧ (initSchedule r).getD 0 0#32 = 0xB7E15163#32 ∧
    ∀ k, 1 ≤ k → k ≤ 2 * r + 3 →
      (initSchedule r).getD k 0#32 = (initSchedule r).getD (k - 1) 0#32 + 0x9E3779B9#32

/-- `expand(K, r)` is a schedule of `2r+4` words for every key and every r, and the mixing loop runs
`3t` times whenever r >= 2, and 18, 18 and 24 times for r = 1 (R142, R143). -/
def Obligations.ExpandLengthAndCount : Prop :=
  (∀ (key : List Byte) (r : Nat), (expand key r).length = 2 * r + 4) ∧
  (∀ b r, b = 16 ∨ b = 24 ∨ b = 32 → 2 ≤ r → mixCount b r = 3 * (2 * r + 4)) ∧
  mixCount 16 1 = 18 ∧ mixCount 24 1 = 18 ∧ mixCount 32 1 = 24

/-- S, ACTIVE and KEY_VALID change only where the core completes a KEY_EXPAND or KEY_CLEAR, or at
reset (R35, R36, R147, R263). -/
def Obligations.OnlyKeyCommandsChangeSchedule : Prop :=
  ∀ s t : State, step s = .next t →
    (t.core.sched ≠ s.core.sched ∨ t.core.active ≠ s.core.active ∨
      t.core.status.keyValid ≠ s.core.status.keyValid) →
    s.Completes .keyExpand ∨ s.Completes .keyClear ∨
      (∃ draws, s.nextMove = .resetLow draws) ∨ s.nextMove = .resetHigh

/-! ### The codec, the arithmetic and the block transform -/

/-- The codec is an exact round trip (R122). -/
def Obligations.CodecRoundTrip : Prop :=
  (∀ b : List Byte, b.length = 16 → blockToBytes (bytesToBlock b) = b) ∧
  (∀ q : Quad, bytesToBlock (blockToBytes q) = q) ∧
  bytesToBlock [0#8, 1#8, 2#8, 3#8, 4#8, 5#8, 6#8, 7#8, 8#8, 9#8, 10#8, 11#8, 12#8, 13#8, 14#8, 15#8]
    = { w0 := 0x03020100#32, w1 := 0x07060504#32, w2 := 0x0B0A0908#32, w3 := 0x0F0E0D0C#32 }

/-- Rotations (R125): their formula, by the amount modulo 32; a multiple of 32 leaves the word; each
rotation undoes the other; and where each bit goes. -/
def Obligations.RotationLaws : Prop :=
  ∀ (x : Word) (n : Nat),
    rotr (rotl x n) n = x ∧ rotl (rotr x n) n = x ∧
    rotl x n = rotl x (n % 32) ∧ rotr x n = rotr x (n % 32) ∧
    (n % 32 = 0 → rotl x n = x ∧ rotr x n = x) ∧
    (n % 32 ≠ 0 → rotl x n = (x <<< (n % 32)) ||| (x >>> (32 - n % 32)) ∧
      rotr x n = (x >>> (n % 32)) ||| (x <<< (32 - n % 32))) ∧
    (∀ k, k < 32 → (rotl x n).getLsbD ((k + n) % 32) = x.getLsbD k)

/-- The xor of two blocks is a block, byte by byte, and word by word through the codec (R127). -/
def Obligations.BlockXorOnWords : Prop :=
  ∀ x y : List Byte, x.length = 16 → y.length = 16 →
    (xorBytes x y).length = 16 ∧
    (∀ k, k < 16 → (xorBytes x y).getD k 0#8 = x.getD k 0#8 ^^^ y.getD k 0#8) ∧
    bytesToBlock (xorBytes x y) =
      { w0 := (bytesToBlock x).w0 ^^^ (bytesToBlock y).w0
        w1 := (bytesToBlock x).w1 ^^^ (bytesToBlock y).w1
        w2 := (bytesToBlock x).w2 ^^^ (bytesToBlock y).w2
        w3 := (bytesToBlock x).w3 ^^^ (bytesToBlock y).w3 }

/-- Decryption and encryption of a block are inverse to each other, for every schedule, every round
count and every block (R162). -/
def Obligations.BlockTransformInverse : Prop :=
  ∀ (sched : List Word) (r : Nat) (x : List Byte), x.length = 16 →
    decryptBlock (encryptBlock x sched r) sched r = x ∧
    encryptBlock (decryptBlock x sched r) sched r = x

/-- BLK_ENC (R164): the block of BLK, encrypted in place with the active schedule and SCHED_R; with
no active schedule, NO_KEY. -/
def Obligations.BlkEncOutcomes : Prop :=
  ∀ s : State,
    (s.core.operands.keyValid = true →
      exec .blkEnc s = .next { s with core := { s.core with
        blk := bytesToBlock (encryptBlock (blockToBytes s.core.operands.blk) s.core.operands.sched
          s.core.operands.active.schedR.toNat)
        status := { s.core.status with done := true, busy := false }
        pending := none } }) ∧
    (s.core.operands.keyValid = false → exec .blkEnc s = .next (s.failed false 5#4))

/-- BLK_DEC (R165). -/
def Obligations.BlkDecOutcomes : Prop :=
  ∀ s : State,
    (s.core.operands.keyValid = true →
      exec .blkDec s = .next { s with core := { s.core with
        blk := bytesToBlock (decryptBlock (blockToBytes s.core.operands.blk) s.core.operands.sched
          s.core.operands.active.schedR.toNat)
        status := { s.core.status with done := true, busy := false }
        pending := none } }) ∧
    (s.core.operands.keyValid = false → exec .blkDec s = .next (s.failed false 5#4))

/-- A host that runs BLK_ENC and then BLK_DEC on an idle core with an active schedule has its block
back, with no error (R162, R165). -/
def Obligations.BlkEncThenBlkDecRestores : Prop :=
  ∀ (s : State) (rest : List Input),
    s.rstN = true → s.core.status.busy = false → s.core.status.keyValid = true →
    s.inputs = [.bus (.write 0x0008#14 .b4 3#32), .core, .bus (.write 0x0008#14 .b4 4#32), .core]
      ++ rest →
    ∃ t, Host.Core.run Sys2Proof.core 4 s = .next t ∧ t.core.blk = s.core.blk ∧
      t.core.status.err = false ∧ t.core.status.done = true ∧ t.core.status.busy = false ∧
      t.inputs = rest

/-! ### Padding -/

/-- The padding laws (R182). -/
def Obligations.PaddingLaws : Prop :=
  (∀ m : List Byte,
    1 ≤ (padBytes m).length - m.length ∧ (padBytes m).length - m.length ≤ 16 ∧
    (padBytes m).length % 16 = 0 ∧ unpadBytes (padBytes m) = some m) ∧
  (∃ m out : List Byte, m.length % 16 ≠ 0 ∧ unpadBytes m = some out)

/-- unpad succeeds exactly on a message followed by n bytes of value n, n in 1..16, and returns that
message (R181). -/
def Obligations.UnpadAcceptsExactlyPadded : Prop :=
  ∀ m out : List Byte, unpadBytes m = some out ↔
    ∃ n, 1 ≤ n ∧ n ≤ 16 ∧ m = out ++ List.replicate n (BitVec.ofNat 8 n)

/-- PAD (R183, R226, with the output bound as its formula gives it, log entry 19): the padded
message in OutBuf, or INVALID_LENGTH. That OutBuf keeps its hidden bytes, above the
new OUT_LEN after a success and all of them after an error, is the model's choice (log entry 10). -/
def Obligations.PadOutcomes : Prop :=
  ∀ s : State,
    (s.core.operands.inLen.toNat ≤ 4096 → 16 * (s.core.operands.inLen.toNat / 16) + 16 ≤ 4096 →
      ∃ t, exec .pad s = .next t ∧
        OutputDelivered s.core t.core (padBytes s.core.operands.inBytes) ∧
        t = { s with core := { s.core with
          outBuf := t.core.outBuf
          outLen := t.core.outLen
          status := { s.core.status with done := true, busy := false }
          pending := none } }) ∧
    ((4096 < s.core.operands.inLen.toNat ∨
        4096 < 16 * (s.core.operands.inLen.toNat / 16) + 16) →
      exec .pad s = .next (s.failed true 6#4))

/-- UNPAD (R184): the message without its padding in OutBuf; INVALID_LENGTH; INVALID_PADDING. That
OutBuf keeps its hidden bytes, above the new OUT_LEN after a success and all of them after an error,
is the model's choice (log entry 10). -/
def Obligations.UnpadOutcomes : Prop :=
  ∀ s : State,
    (∀ out, s.core.operands.inLen.toNat ≤ 4096 →
      unpadBytes s.core.operands.inBytes = some out →
      ∃ t, exec .unpad s = .next t ∧ OutputDelivered s.core t.core out ∧
        t = { s with core := { s.core with
          outBuf := t.core.outBuf
          outLen := t.core.outLen
          status := { s.core.status with done := true, busy := false }
          pending := none } }) ∧
    (4096 < s.core.operands.inLen.toNat → exec .unpad s = .next (s.failed true 6#4)) ∧
    (s.core.operands.inLen.toNat ≤ 4096 → unpadBytes s.core.operands.inBytes = none →
      exec .unpad s = .next (s.failed true 3#4))

/-! ### The chained mode -/

/-- The output of encryptChained: the IV, then as many blocks as the padded text has, each the
encryption of its text block xored with the 16 bytes of output before it (R201, R206). -/
def Obligations.EncryptChainedShape : Prop :=
  ∀ (p : List Byte) (sched : List Word) (r : Nat) (iv : List Byte), iv.length = 16 →
    (encryptChained p sched r iv).length = 32 + 16 * (p.length / 16) ∧
    (encryptChained p sched r iv).take 16 = iv ∧
    ∀ k, k < (padBytes p).length / 16 →
      ((encryptChained p sched r iv).drop (16 * (k + 1))).take 16 =
        encryptBlock
          (xorBytes (((padBytes p).drop (16 * k)).take 16)
            (((encryptChained p sched r iv).drop (16 * k)).take 16)) sched r

/-- Chained round trip (R207): decrypting what was encrypted gives the plaintext back, for every
schedule, round count, IV and plaintext. -/
def Obligations.ChainedRoundTrip : Prop :=
  ∀ (p : List Byte) (sched : List Word) (r : Nat) (iv : List Byte), iv.length = 16 →
    decryptChained (encryptChained p sched r iv) sched r = .plain p

/-- Changing bits of the IV changes the same bits of the first recovered block and of no other, so
whatever is detected is detected by the padding alone (R207). -/
def Obligations.IvFlipReachesFirstPlaintextBlock : Prop :=
  ∀ (sched : List Word) (r n : Nat) (text iv delta : List Byte),
    16 * (n + 1) ≤ text.length → iv.length = 16 → delta.length = 16 →
    decChain sched r (n + 1) text (xorBytes iv delta) =
      xorBytes ((decChain sched r (n + 1) text iv).take 16) delta
        ++ (decChain sched r (n + 1) text iv).drop 16

/-- CBC_ENC with IV_MODE = 1 (R204): IV0..IV3 are the IV, and stay what they were captured as. That
OutBuf keeps its hidden bytes above the new OUT_LEN is the model's choice (log entry 10). -/
def Obligations.CbcEncWithFixedIv : Prop :=
  ∀ s : State, s.core.operands.keyValid = true → s.core.operands.inLen.toNat ≤ 4096 →
    32 + 16 * (s.core.operands.inLen.toNat / 16) ≤ 4096 →
    s.core.operands.ctrl.ivMode = true →
    ∃ t, exec .cbcEnc s = .next t ∧
      OutputDelivered s.core t.core
        (encryptChained s.core.operands.inBytes s.core.operands.sched
          s.core.operands.active.schedR.toNat (blockToBytes s.core.operands.iv)) ∧
      t = { s with core := { s.core with
        outBuf := t.core.outBuf
        outLen := t.core.outLen
        iv := s.core.operands.iv
        status := { s.core.status with done := true, busy := false }
        pending := none } }

/-- CBC_ENC with IV_MODE = 0 and an offer d on the entropy port (R66, R203, R204): the IV is d, byte
k being its bits [8k+7 : 8k], and it is written to IV0..IV3. The model's choices: that the offer
drawn is the one standing at the core's turn (log entry 20), that the port shows no offer afterwards
(log entry 5), and that OutBuf keeps its hidden bytes above the new OUT_LEN (log entry 10). -/
def Obligations.CbcEncWithDrawnIv : Prop :=
  ∀ (s : State) (d : EntropyWord), s.core.operands.keyValid = true →
    s.core.operands.inLen.toNat ≤ 4096 → 32 + 16 * (s.core.operands.inLen.toNat / 16) ≤ 4096 →
    s.core.operands.ctrl.ivMode = false → s.entropy = some d →
    ∃ t, exec .cbcEnc s = .next t ∧
      OutputDelivered s.core t.core
        (encryptChained s.core.operands.inBytes s.core.operands.sched
          s.core.operands.active.schedR.toNat
          ((List.range 16).map fun k => d.extractLsb' (8 * k) 8)) ∧
      t = { s with
        entropy := none
        core := { s.core with
          outBuf := t.core.outBuf
          outLen := t.core.outLen
          iv := { w0 := d.extractLsb' 0 32, w1 := d.extractLsb' 32 32, w2 := d.extractLsb' 64 32,
                  w3 := d.extractLsb' 96 32 }
          status := { s.core.status with done := true, busy := false }
          pending := none } }

/-- CBC_ENC with IV_MODE = 0, its checks passed and no offer: it waits, nothing changes, and
`ent_ready` is raised (R66, R112, R267). That the wait is a step without change is the model's
choice (log entry 6). -/
def Obligations.CbcEncWaitsForEntropy : Prop :=
  ∀ s : State, s.core.operands.keyValid = true → s.core.operands.inLen.toNat ≤ 4096 →
    32 + 16 * (s.core.operands.inLen.toNat / 16) ≤ 4096 →
    s.core.operands.ctrl.ivMode = false → s.entropy = none →
    exec .cbcEnc s = .next s ∧
    (∀ p, s.core.pending = some p → decode p.word = .ok .cbcEnc → s.core.entReady = true)

/-- The errors of CBC_ENC in their order (R204, R225, R226, R229). They take no draw: the offer on
the entropy port stays. That OutBuf keeps its hidden bytes is the model's choice (log entry 10). -/
def Obligations.CbcEncErrors : Prop :=
  ∀ s : State,
    (s.core.operands.keyValid = false → exec .cbcEnc s = .next (s.failed true 5#4)) ∧
    (s.core.operands.keyValid = true →
      (4096 < s.core.operands.inLen.toNat ∨
        4096 < 32 + 16 * (s.core.operands.inLen.toNat / 16)) →
      exec .cbcEnc s = .next (s.failed true 6#4))

/-- CBC_DEC (R205): the recovered message, and its errors in their order; the IV registers are not
touched. That OutBuf keeps its hidden bytes, above the
new OUT_LEN after a success and all of them after an error, is the model's choice (log entry 10). -/
def Obligations.CbcDecOutcomes : Prop :=
  ∀ s : State,
    (∀ out, s.core.operands.keyValid = true → s.core.operands.inLen.toNat ≤ 4096 →
      32 ≤ s.core.operands.inLen.toNat → s.core.operands.inLen.toNat % 16 = 0 →
      decryptChained s.core.operands.inBytes s.core.operands.sched
        s.core.operands.active.schedR.toNat = .plain out →
      ∃ t, exec .cbcDec s = .next t ∧ OutputDelivered s.core t.core out ∧
        t = { s with core := { s.core with
          outBuf := t.core.outBuf
          outLen := t.core.outLen
          status := { s.core.status with done := true, busy := false }
          pending := none } }) ∧
    (s.core.operands.keyValid = false → exec .cbcDec s = .next (s.failed true 5#4)) ∧
    (s.core.operands.keyValid = true → 4096 < s.core.operands.inLen.toNat →
      exec .cbcDec s = .next (s.failed true 6#4)) ∧
    (s.core.operands.keyValid = true → s.core.operands.inLen.toNat ≤ 4096 →
      (s.core.operands.inLen.toNat < 32 ∨ s.core.operands.inLen.toNat % 16 ≠ 0) →
      exec .cbcDec s = .next (s.failed true 2#4)) ∧
    (s.core.operands.keyValid = true → s.core.operands.inLen.toNat ≤ 4096 →
      32 ≤ s.core.operands.inLen.toNat → s.core.operands.inLen.toNat % 16 = 0 →
      decryptChained s.core.operands.inBytes s.core.operands.sched
        s.core.operands.active.schedR.toNat = .badPadding →
      exec .cbcDec s = .next (s.failed true 3#4))

/-- On the machine (R207): CBC_ENC on a message, its output taken as the input of CBC_DEC under the
same schedule, and CBC_DEC leaves the message in OutBuf without raising an error. -/
def Obligations.MachineChainedRoundTrip : Prop :=
  ∀ s t u : State,
    s.core.operands.inBytes.length = s.core.operands.inLen.toNat →
    s.core.operands.keyValid = true → s.core.operands.inLen.toNat ≤ 4079 →
    (s.core.operands.ctrl.ivMode = true ∨ s.entropy ≠ none) →
    exec .cbcEnc s = .next t →
    u.core.operands.keyValid = true →
    u.core.operands.sched = s.core.operands.sched →
    u.core.operands.active = s.core.operands.active →
    u.core.operands.inLen = t.core.outLen →
    u.core.operands.inBytes = t.core.output →
    ∃ v, exec .cbcDec u = .next v ∧ v.core.output = s.core.operands.inBytes ∧
      v.core.status.err = u.core.status.err ∧ v.core.status.done = true

/-! ### The bus -/

/-- A misaligned access answers ERROR, reads 0 and changes nothing, not even LOCKERR (R64). -/
def Obligations.MisalignedAccessRefused : Prop :=
  ∀ (a : Offset) (n : Width) (v : Word) (c : CoreState), a.toNat % widthBytes n ≠ 0 →
    memRead a n c = ({ kind := .error, value := 0#32 }, c) ∧
    memWrite a n v c = ({ kind := .error, value := 0#32 }, c)

/-- An access to a reserved offset answers ERROR, reads 0 and changes nothing (R68). -/
def Obligations.ReservedOffsetRefused : Prop :=
  ∀ (a : Offset) (n : Width) (v : Word) (c : CoreState),
    (0x0060 ≤ a.toNat ∧ a.toNat ≤ 0x0FFF) ∨ 0x3000 ≤ a.toNat →
    memRead a n c = ({ kind := .error, value := 0#32 }, c) ∧
    memWrite a n v c = ({ kind := .error, value := 0#32 }, c)

/-- A 1- or 2-byte access in the register region answers ERROR, reads 0 and changes nothing (R65). -/
def Obligations.NarrowRegisterAccessRefused : Prop :=
  ∀ (a : Offset) (n : Width) (v : Word) (c : CoreState), a.toNat < 0x0060 → n ≠ .b4 →
    memRead a n c = ({ kind := .error, value := 0#32 }, c) ∧
    memWrite a n v c = ({ kind := .error, value := 0#32 }, c)

/-- Read-only and write-only targets (R69): writes of ID, OUT_LEN, ACTIVE and OutBuf; reads of CMD
and KEY. -/
def Obligations.ReadOnlyAndWriteOnlyTargets : Prop :=
  ∀ (v : Word) (c : CoreState),
    (memWrite 0x0000#14 .b4 v c = ({ kind := .error, value := 0#32 }, c) ∧
     memWrite 0x0018#14 .b4 v c = ({ kind := .error, value := 0#32 }, c) ∧
     memWrite 0x001C#14 .b4 v c = ({ kind := .error, value := 0#32 }, c)) ∧
    (∀ (a : Offset) (n : Width), 0x2000 ≤ a.toNat → a.toNat < 0x3000 →
      a.toNat % widthBytes n = 0 →
      memWrite a n v c = ({ kind := .error, value := 0#32 },
        if c.status.busy then { c with status := { c.status with lockErr := true } } else c)) ∧
    (c.status.busy = false →
      memRead 0x0008#14 .b4 c = ({ kind := .okay, value := 0#32 }, c) ∧
      ∀ k, k < 8 → memRead (BitVec.ofNat 14 (0x0020 + 4 * k)) .b4 c =
        ({ kind := .okay, value := 0#32 }, c)) ∧
    (c.status.busy = true → ∀ k, k < 8 → memRead (BitVec.ofNat 14 (0x0020 + 4 * k)) .b4 c =
      ({ kind := .error, value := 0#32 }, { c with status := { c.status with lockErr := true } }))

/-- Locking while busy (R114): which reads and writes are refused, with ERROR, value 0, no effect
but LOCKERR; and which stay open. -/
def Obligations.BusyAccessesLocked : Prop :=
  ∀ (a : Offset) (n : Width) (v : Word) (c : CoreState), c.status.busy = true →
    a.toNat % widthBytes n = 0 → (a.toNat < 0x0060 → n = .b4) →
    (a.toNat = 0x14 ∨ a.toNat = 0x18 ∨ (0x20 ≤ a.toNat ∧ a.toNat < 0x60) ∨
        (0x1000 ≤ a.toNat ∧ a.toNat < 0x3000) →
      memRead a n c = ({ kind := .error, value := 0#32 },
        { c with status := { c.status with lockErr := true } })) ∧
    (a.toNat = 0x04 ∨ a.toNat = 0x14 ∨ (0x20 ≤ a.toNat ∧ a.toNat < 0x60) ∨
        (0x1000 ≤ a.toNat ∧ a.toNat < 0x3000) →
      memWrite a n v c = ({ kind := .error, value := 0#32 },
        { c with status := { c.status with lockErr := true } })) ∧
    (a.toNat = 0x00 ∨ a.toNat = 0x04 ∨ a.toNat = 0x08 ∨ a.toNat = 0x0C ∨ a.toNat = 0x10 ∨
        a.toNat = 0x1C →
      (memRead a n c).1.kind = .okay ∧ (memRead a n c).2 = c) ∧
    (a.toNat = 0x0C ∨ a.toNat = 0x10 → (memWrite a n v c).1.kind = .okay)

/-- A read changes no state, but for LOCKERR when it is refused while busy (R67, R70). -/
def Obligations.ReadsChangeOnlyLockErr : Prop :=
  ∀ (a : Offset) (n : Width) (c : CoreState),
    (c.status.busy = false → (memRead a n c).2 = c) ∧
    ((memRead a n c).1.kind = .okay → (memRead a n c).2 = c) ∧
    ((memRead a n c).2 = c ∨
      (memRead a n c).2 = { c with status := { c.status with lockErr := true } })

/-- What a register write stores. IN_LEN, BLK0..BLK3 and IV0..IV3 (words 5 and 16 to 23 of the map)
take the whole word written while idle and read it back, and no other register reads differently; a
KEY write while idle stores its word in that KEY register alone; a CTRL write while idle stores its
three fields and changes nothing else; an IRQ_EN write stores DONE_IE and changes nothing else, busy
or idle (R25, R28, R29, R32, R33, R34, R71). -/
def Obligations.RegistersHoldWhatIsWritten : Prop :=
  (∀ (v : Word) (c : CoreState), c.status.busy = false →
    (∀ k, k = 5 ∨ (16 ≤ k ∧ k < 24) → ∃ c',
      memWrite (BitVec.ofNat 14 (4 * k)) .b4 v c = ({ kind := .okay, value := 0#32 }, c') ∧
      c' = { c with inLen := c'.inLen, blk := c'.blk, iv := c'.iv } ∧
      memRead (BitVec.ofNat 14 (4 * k)) .b4 c' = ({ kind := .okay, value := v }, c') ∧
      ∀ j, j < 24 → j ≠ k → (memRead (BitVec.ofNat 14 (4 * j)) .b4 c').1 =
        (memRead (BitVec.ofNat 14 (4 * j)) .b4 c).1) ∧
    (∀ i : Fin 8, memWrite (BitVec.ofNat 14 (0x0020 + 4 * i.val)) .b4 v c =
      ({ kind := .okay, value := 0#32 }, { c with key := c.key.set i v })) ∧
    memWrite 0x0004#14 .b4 v c = ({ kind := .okay, value := 0#32 },
      { c with ctrl := { rounds := v.extractLsb' 0 8, keyLen := v.extractLsb' 8 6,
                         ivMode := v.getLsbD 16 } })) ∧
  (∀ (v : Word) (c : CoreState),
    memWrite 0x0010#14 .b4 v c =
      ({ kind := .okay, value := 0#32 }, { c with doneIe := v.getLsbD 0 }))

/-- InBuf and the byte order (R37, R63): an aligned write of n bytes while idle stores exactly its
low n bytes; the same access reads them back, and a one-byte read at `a + j` reads byte j. -/
def Obligations.InBufWriteThenRead : Prop :=
  ∀ (a : Offset) (n : Width) (v : Word) (c : CoreState), c.status.busy = false →
    0x1000 ≤ a.toNat → a.toNat < 0x2000 → a.toNat % widthBytes n = 0 →
    ∃ c', memWrite a n v c = ({ kind := .okay, value := 0#32 }, c') ∧
      c' = { c with inBuf := c'.inBuf } ∧
      (memRead a n c').1.kind = .okay ∧
      (memRead a n c').1.value.toNat = v.toNat % 2 ^ (8 * widthBytes n) ∧
      (∀ j, j < widthBytes n → memRead (a + BitVec.ofNat 14 j) .b1 c' =
        ({ kind := .okay, value := (v.extractLsb' (8 * j) 8).setWidth 32 }, c')) ∧
      (∀ k, k < a.toNat - 0x1000 ∨ a.toNat - 0x1000 + widthBytes n ≤ k →
        Memory.read c'.inBuf k = Memory.read c.inBuf k)

/-- OutBuf reads are masked (R38, R70, R72), at every width: byte j of the value read at an aligned
OutBuf offset is byte k + j of OutBuf where that is below OUT_LEN and 0 at and above; the value has no
bits above its n bytes. -/
def Obligations.OutBufReadsMasked : Prop :=
  ∀ (a : Offset) (n : Width) (c : CoreState), c.status.busy = false →
    0x2000 ≤ a.toNat → a.toNat < 0x3000 → a.toNat % widthBytes n = 0 →
    ∃ w : Word, memRead a n c = ({ kind := .okay, value := w }, c) ∧
      w.toNat < 2 ^ (8 * widthBytes n) ∧
      ∀ j, j < widthBytes n → w.extractLsb' (8 * j) 8 =
        if a.toNat - 0x2000 + j < c.outLen.toNat then Memory.read c.outBuf (a.toNat - 0x2000 + j)
        else 0#8

/-- A STATUS write clears DONE where bit 1 is 1 and LOCKERR where bit 3 is 1, busy or not, and
touches nothing else; STATUS reads as its fields at their bits (R27, R231). -/
def Obligations.StatusWriteOneToClear : Prop :=
  (∀ (v : Word) (c : CoreState),
    memWrite 0x000C#14 .b4 v c = ({ kind := .okay, value := 0#32 },
      { c with status := { c.status with
        done := c.status.done && !v.getLsbD 1
        lockErr := c.status.lockErr && !v.getLsbD 3 } })) ∧
  (∀ c : CoreState, ∃ w, memRead 0x000C#14 .b4 c = ({ kind := .okay, value := w }, c) ∧
    w.getLsbD 0 = c.status.busy ∧ w.getLsbD 1 = c.status.done ∧ w.getLsbD 2 = c.status.err ∧
    w.getLsbD 3 = c.status.lockErr ∧ w.extractLsb' 4 4 = c.status.errCode ∧
    w.getLsbD 8 = c.status.keyValid ∧ w.extractLsb' 9 23 = 0#23)

/-- Reserved fields (R40) of CTRL, STATUS, IRQ_EN and ACTIVE read 0, and what is written to them
changes nothing; CTRL reads back the writable bits written while idle. -/
def Obligations.ReservedBitsIgnored : Prop :=
  ∀ (v : Word) (c : CoreState),
    (memRead 0x0004#14 .b4 c).1.value &&& ~~~0x00013FFF#32 = 0#32 ∧
    (memRead 0x000C#14 .b4 c).1.value &&& ~~~0x000001FF#32 = 0#32 ∧
    (memRead 0x0010#14 .b4 c).1.value &&& ~~~0x00000001#32 = 0#32 ∧
    (memRead 0x001C#14 .b4 c).1.value &&& ~~~0x00003FFF#32 = 0#32 ∧
    memWrite 0x0004#14 .b4 v c = memWrite 0x0004#14 .b4 (v &&& 0x00013FFF#32) c ∧
    memWrite 0x000C#14 .b4 v c = memWrite 0x000C#14 .b4 (v &&& 0x000001FF#32) c ∧
    memWrite 0x0010#14 .b4 v c = memWrite 0x0010#14 .b4 (v &&& 0x00000001#32) c ∧
    memWrite 0x001C#14 .b4 v c = memWrite 0x001C#14 .b4 (v &&& 0x00003FFF#32) c ∧
    (c.status.busy = false →
      memRead 0x0004#14 .b4 (memWrite 0x0004#14 .b4 v c).2 =
        ({ kind := .okay, value := v &&& 0x00013FFF#32 }, (memWrite 0x0004#14 .b4 v c).2))

/-- Key material is never read back (R32, R234): two cores that differ only in KEY, and in the KEY
that a running command captured, answer every transaction alike, show the same outputs, and still
differ only there afterwards. -/
def Obligations.KeyMaterialNeverRead : Prop :=
  ∀ (t : Txn) (c d : CoreState), c.withoutKey = d.withoutKey →
    (transact t c).1 = (transact t d).1 ∧
    (transact t c).2.withoutKey = (transact t d).2.withoutKey ∧
    c.irq = d.irq ∧ c.entReady = d.entReady

/-- ID is hard-wired: it reads `0x46430001`, busy or idle, and a write answers ERROR without effect
(R24). -/
def Obligations.IdIsHardwired : Prop :=
  ∀ (v : Word) (c : CoreState),
    memRead 0x0000#14 .b4 c = ({ kind := .okay, value := 0x46430001#32 }, c) ∧
    memWrite 0x0000#14 .b4 v c = ({ kind := .error, value := 0#32 }, c)

/-- The interrupt output (R232): raised exactly while DONE_IE and DONE are 1; dropped by the
acknowledgement, by acceptance, by reset and by masking, which leaves DONE; raised by success and
by error alike. -/
def Obligations.InterruptOutput : Prop :=
  ∀ c : CoreState,
    (c.irq = true ↔ c.doneIe = true ∧ c.status.done = true) ∧
    (∀ v : Word, v.getLsbD 1 = true → (memWrite 0x000C#14 .b4 v c).2.irq = false) ∧
    (∀ v : Word, c.status.busy = false → (memWrite 0x0008#14 .b4 v c).2.irq = false) ∧
    (∀ m : Memory, (CoreState.reset m).irq = false) ∧
    (∀ v : Word, v.getLsbD 0 = false → (memWrite 0x0010#14 .b4 v c).2.irq = false ∧
      (memWrite 0x0010#14 .b4 v c).2.status = c.status) ∧
    (∀ b e, c.complete.irq = c.doneIe ∧ (c.fail b e).irq = c.doneIe)

/-! ### Reset -/

/-- What a host observes after reset, whatever InBuf drew (R252). -/
def Obligations.ResetObservables : Prop :=
  ∀ m : Memory, let c := CoreState.reset m
    memRead 0x0000#14 .b4 c = ({ kind := .okay, value := 0x46430001#32 }, c) ∧
    memRead 0x0004#14 .b4 c = ({ kind := .okay, value := 0x00001014#32 }, c) ∧
    (∀ k, 2 ≤ k → k < 24 → memRead (BitVec.ofNat 14 (4 * k)) .b4 c =
      ({ kind := .okay, value := 0#32 }, c)) ∧
    (∀ k, k < 4096 → memRead (BitVec.ofNat 14 (0x2000 + k)) .b1 c =
      ({ kind := .okay, value := 0#32 }, c)) ∧
    (∀ k, k < 4096 → memRead (BitVec.ofNat 14 (0x1000 + k)) .b1 c =
      ({ kind := .okay, value := (Memory.read m k).setWidth 32 }, c)) ∧
    c.irq = false

/-- Reset, in any state and during any command: the whole record becomes the reset record, so a
running command never completes and no schedule is active; the release leaves it so (R250, R251). -/
def Obligations.ResetAbandonsCommand : Prop :=
  ∀ (s : State) (draws : List Host.Cell) (rest : List Input),
    s.inputs = .resetLow draws :: .resetHigh :: rest →
    ∃ m t, step s = .next { s with
        inputs := .resetHigh :: rest, core := CoreState.reset m, rstN := false, resp := none } ∧
      Memory.wf m 4096 ∧
      Host.Core.run Sys2Proof.core 2 s = .next t ∧ t.rstN = true ∧ t.core = CoreState.reset m ∧
      t.core.status.busy = false ∧ t.core.status.done = false ∧ t.core.status.keyValid = false ∧
      t.core.pending = none ∧ t.inputs = rest

/-- Reset can draw any contents of InBuf at all (R37, U3): every memory in canonical form is what
some list of draws makes. -/
def Obligations.ResetDrawsAnyContents : Prop :=
  ∀ m : Memory, Memory.wf m 4096 → ∃ draws : List Host.Cell,
    ∀ s : State, s.nextMove = .resetLow draws →
      ∃ t, step s = .next t ∧ t.core = CoreState.reset m

/-! ### The whole machine -/

/-- The machine stops nowhere but at a bus transaction while `rst_n = 0` (R250, U12; a fault by the
model's reading, log entry 7): no command, no operand and no data ends a run, whatever the parameters
are. The step is the parametric one at R9's values. -/
def Obligations.StepStopsOnlyInReset : Prop :=
  ∀ s : State,
    (s.StepSafe ↔ ¬ (s.rstN = false ∧ ∃ t, s.nextMove = .bus t)) ∧
    (∀ f, step s = .fault f → f = .busInReset) ∧ (∀ r, step s ≠ .refused r) ∧
    (∀ p : Params, (∃ t, stepWith p s = .next t) ↔
      ¬ (s.rstN = false ∧ ∃ t, s.nextMove = .bus t)) ∧
    stepWith Config.params s = step s

/-- The reset state has every invariant of `State.Inv`, at R9's values of the parameters and at every
value the register map has room for (log entry 18). -/
def Obligations.ResetEstablishesInvariants : Prop :=
  State.reset.Inv ∧ ∀ p : Params, p.wf = true → (State.resetWith p).Inv p

/-- Every step keeps every invariant of `State.Inv`: BUSY exactly while a command is pending (R21),
captured operands as they stand (R111), the STATUS flags' relations (R27, R220), ACTIVE (R31), the
active schedule the expansion of a key (R36), the buffers in canonical form, OUT_LEN bounded (R30),
and the reset record while `rst_n = 0` (R250). So does every step under parameters that the register
map has room for (R9; what values other than R9's do is the model's choice, log entry 18). -/
def Obligations.StepKeepsInvariants : Prop :=
  (∀ s t : State, s.Inv → step s = .next t → t.Inv) ∧
  (∀ (p : Params) (s t : State), p.wf = true → s.Inv p → stepWith p s = .next t → t.Inv p)

/-- Errors are precise (R228): a command that ends with ERR newly set leaves the state as it was but
for STATUS, PENDING and, for the buffer-producing commands, OUT_LEN, which is 0; and the code it
reports is one of R220 that this command raises. That OutBuf too is as it was is the model's choice
(log entry 10). -/
def Obligations.ErrorsArePrecise : Prop :=
  ∀ (i : Instr) (s t : State), s.core.status.err = false → exec i s = .next t →
    t.core.status.err = true →
    t = s.failed (i = .cbcEnc ∨ i = .cbcDec ∨ i = .pad ∨ i = .unpad) t.core.status.errCode ∧
    ((t.core.status.errCode = 1#4 ∧ i = .keyExpand) ∨
     (t.core.status.errCode = 2#4 ∧ i = .cbcDec) ∨
     (t.core.status.errCode = 3#4 ∧ (i = .cbcDec ∨ i = .unpad)) ∨
     (t.core.status.errCode = 4#4 ∧ i = .keyExpand) ∨
     (t.core.status.errCode = 5#4 ∧
       (i = .blkEnc ∨ i = .blkDec ∨ i = .cbcEnc ∨ i = .cbcDec)) ∨
     (t.core.status.errCode = 6#4 ∧ (i = .cbcEnc ∨ i = .cbcDec ∨ i = .pad ∨ i = .unpad)))

/-- What a command may write (R93): everything else is unchanged, InBuf and the staging and
configuration registers by every command. -/
def Obligations.CommandsTouchOnlyTheirTargets : Prop :=
  ∀ (i : Instr) (s t : State), exec i s = .next t →
    (t.core.ctrl = s.core.ctrl ∧ t.core.doneIe = s.core.doneIe ∧ t.core.inLen = s.core.inLen ∧
      t.core.status.lockErr = s.core.status.lockErr ∧
      (∀ k, Memory.read t.core.inBuf k = Memory.read s.core.inBuf k) ∧
      t.rstN = s.rstN ∧ t.inputs = s.inputs ∧ t.resp = s.resp) ∧
    (i ≠ .keyClear → t.core.key = s.core.key) ∧
    (i ≠ .keyExpand → i ≠ .keyClear →
      t.core.sched = s.core.sched ∧ t.core.active = s.core.active ∧
      t.core.status.keyValid = s.core.status.keyValid) ∧
    (i ≠ .blkEnc → i ≠ .blkDec → t.core.blk = s.core.blk) ∧
    (i ≠ .cbcEnc → t.core.iv = s.core.iv ∧ t.entropy = s.entropy) ∧
    (i ≠ .cbcEnc → i ≠ .cbcDec → i ≠ .pad → i ≠ .unpad →
      t.core.outLen = s.core.outLen ∧
      ∀ k, Memory.read t.core.outBuf k = Memory.read s.core.outBuf k)
end

