-- ==== Sys2Proof/Laws/Memory.lean ====
section
/-! SUPPORT. The laws of the buffers: what a byte reads as after a write, that every memory operation
keeps the canonical form, and that equal contents in canonical form are equal data. -/

namespace Sys2Proof.Machine

/-- A byte that no entry lists reads as the unlisted byte. -/
theorem Memory.read_of_not_listed {m : Memory} {k : Nat} (h : ∀ c ∈ m, c.1 ≠ k) :
    Memory.read m k = Memory.unlisted := by
  induction m with
  | nil => rfl
  | cons c m ih =>
    obtain ⟨a, b⟩ := c
    have hne : a ≠ k := h (a, b) (by simp)
    simp only [Memory.read, if_neg hne]
    exact ih fun c hc => h c (by simp [hc])

theorem Memory.read_append_of_left {m₁ m₂ : Memory} {k : Nat} (h : ∀ c ∈ m₂, c.1 ≠ k) :
    Memory.read (m₁ ++ m₂) k = Memory.read m₁ k := by
  induction m₁ with
  | nil => exact Memory.read_of_not_listed h
  | cons c m ih =>
    obtain ⟨a, b⟩ := c
    simp only [List.cons_append, Memory.read, ih]

theorem Memory.read_append_of_right {m₁ m₂ : Memory} {k : Nat} (h : ∀ c ∈ m₁, c.1 ≠ k) :
    Memory.read (m₁ ++ m₂) k = Memory.read m₂ k := by
  induction m₁ with
  | nil => rfl
  | cons c m ih =>
    obtain ⟨a, b⟩ := c
    have hne : a ≠ k := h (a, b) (by simp)
    simp only [List.cons_append, Memory.read, if_neg hne]
    exact ih fun c hc => h c (by simp [hc])

/-- Dropping entries of other indices changes nothing at an index that is kept. -/
theorem Memory.read_filter {m : Memory} {k : Nat} (p : Nat → Bool) (hk : p k = true) :
    Memory.read (m.filter fun c => p c.1) k = Memory.read m k := by
  induction m with
  | nil => rfl
  | cons c m ih =>
    obtain ⟨a, b⟩ := c
    by_cases hp : p a = true
    · simp only [List.filter_cons, hp, if_true, Memory.read, ih]
    · have hne : a ≠ k := fun h => hp (h ▸ hk)
      simp only [List.filter_cons, hp, Bool.false_eq_true, if_false, Memory.read, if_neg hne, ih]

/-- The entries of `cellsAt` lie in its range and hold no unlisted byte. -/
theorem Memory.cellsAt_mem {bs : List Byte} {base : Nat} {c : Host.Cell}
    (h : c ∈ Memory.cellsAt base bs) :
    base ≤ c.1 ∧ c.1 < base + bs.length ∧ c.2 ≠ Memory.unlisted := by
  induction bs generalizing base with
  | nil => simp [Memory.cellsAt] at h
  | cons b bs ih =>
    have step : c ∈ Memory.cellsAt (base + 1) bs →
        base ≤ c.1 ∧ c.1 < base + (b :: bs).length ∧ c.2 ≠ Memory.unlisted := fun h' => by
      obtain ⟨h1, h2, h3⟩ := ih h'
      exact ⟨by omega, by simp only [List.length_cons]; omega, h3⟩
    by_cases hb : b = Memory.unlisted
    · simp only [Memory.cellsAt, if_pos hb] at h
      exact step h
    · simp only [Memory.cellsAt, if_neg hb, List.mem_cons] at h
      rcases h with rfl | h
      · exact ⟨le_refl _, by simp, hb⟩
      · exact step h

theorem Memory.cellsAt_sorted (bs : List Byte) (base : Nat) :
    (Memory.cellsAt base bs).Pairwise (fun x y => x.1 < y.1) := by
  induction bs generalizing base with
  | nil => simp [Memory.cellsAt]
  | cons b bs ih =>
    by_cases hb : b = Memory.unlisted
    · simpa only [Memory.cellsAt, if_pos hb] using ih (base + 1)
    · simp only [Memory.cellsAt, if_neg hb, List.pairwise_cons]
      exact ⟨fun c hc => (Memory.cellsAt_mem hc).1, ih (base + 1)⟩

theorem Memory.read_cellsAt (bs : List Byte) (base j : Nat) :
    Memory.read (Memory.cellsAt base bs) (base + j) = bs.getD j Memory.unlisted := by
  induction bs generalizing base j with
  | nil => simp [Memory.cellsAt, Memory.read]
  | cons b bs ih =>
    cases j with
    | zero =>
      by_cases hb : b = Memory.unlisted
      · have hnot : ∀ c ∈ Memory.cellsAt (base + 1) bs, c.1 ≠ base + 0 := fun c hc => by
          have := (Memory.cellsAt_mem hc).1
          omega
        simp only [Memory.cellsAt, if_pos hb, Memory.read_of_not_listed hnot]
        simp [hb]
      · simp [Memory.cellsAt, if_neg hb, Memory.read]
    | succ j =>
      have hshift : base + (j + 1) = base + 1 + j := by omega
      by_cases hb : b = Memory.unlisted
      · simp only [Memory.cellsAt, if_pos hb, hshift, ih]
        simp
      · have hne : ¬ base = base + 1 + j := by omega
        simp only [Memory.cellsAt, if_neg hb, Memory.read, hshift, if_neg hne, ih]
        simp

/-- A write leaves every byte outside its range as it was. -/
theorem Memory.read_write_outside {m : Memory} {base k : Nat} {bs : List Byte}
    (h : k < base ∨ base + bs.length ≤ k) :
    Memory.read (Memory.write m base bs) k = Memory.read m k := by
  have hcells : ∀ c ∈ Memory.cellsAt base bs, c.1 ≠ k := fun c hc => by
    obtain ⟨h1, h2, _⟩ := Memory.cellsAt_mem hc
    omega
  unfold Memory.write
  rcases h with h | h
  · have hhigh : ∀ c ∈ m.filter (fun c => decide (base + bs.length ≤ c.1)), c.1 ≠ k := fun c hc => by
      have := (List.mem_filter.mp hc).2
      simp only [decide_eq_true_eq] at this
      omega
    rw [Memory.read_append_of_left hhigh, Memory.read_append_of_left hcells]
    exact Memory.read_filter (fun a => decide (a < base)) (by simpa using h)
  · have hlow : ∀ c ∈ m.filter (fun c => decide (c.1 < base)), c.1 ≠ k := fun c hc => by
      have := (List.mem_filter.mp hc).2
      simp only [decide_eq_true_eq] at this
      omega
    rw [List.append_assoc, Memory.read_append_of_right hlow, Memory.read_append_of_right hcells]
    exact Memory.read_filter (fun a => decide (base + bs.length ≤ a)) (by simpa using h)

/-- A byte in the range of a write reads as the byte written there. -/
theorem Memory.read_write_inside {m : Memory} {base j : Nat} {bs : List Byte} (h : j < bs.length) :
    Memory.read (Memory.write m base bs) (base + j) = bs.getD j Memory.unlisted := by
  have hlow : ∀ c ∈ m.filter (fun c => decide (c.1 < base)), c.1 ≠ base + j := fun c hc => by
    have := (List.mem_filter.mp hc).2
    simp only [decide_eq_true_eq] at this
    omega
  have hhigh : ∀ c ∈ m.filter (fun c => decide (base + bs.length ≤ c.1)), c.1 ≠ base + j :=
    fun c hc => by
      have := (List.mem_filter.mp hc).2
      simp only [decide_eq_true_eq] at this
      omega
  unfold Memory.write
  rw [Memory.read_append_of_left hhigh, Memory.read_append_of_right hlow, Memory.read_cellsAt]

/-- Empty memory is in canonical form. -/
theorem Memory.wf_nil (size : Nat) : Memory.wf [] size := by
  simp [Memory.wf]

/-- A write inside the buffer keeps the canonical form. -/
theorem Memory.wf_write {m : Memory} {size base : Nat} {bs : List Byte} (hm : Memory.wf m size)
    (hfit : base + bs.length ≤ size) : Memory.wf (Memory.write m base bs) size := by
  obtain ⟨hsorted, hcells⟩ := hm
  refine ⟨?_, ?_⟩
  · unfold Memory.write
    rw [List.pairwise_append, List.pairwise_append]
    refine ⟨⟨hsorted.filter _, Memory.cellsAt_sorted bs base, ?_⟩, hsorted.filter _, ?_⟩
    · intro x hx y hy
      have h1 := (List.mem_filter.mp hx).2
      have h2 := (Memory.cellsAt_mem hy).1
      simp only [decide_eq_true_eq] at h1
      omega
    · intro x hx y hy
      have h2 := (List.mem_filter.mp hy).2
      simp only [decide_eq_true_eq] at h2
      rcases List.mem_append.mp hx with hx | hx
      · have h1 := (List.mem_filter.mp hx).2
        simp only [decide_eq_true_eq] at h1
        omega
      · have h1 := (Memory.cellsAt_mem hx).2.1
        omega
  · intro c hc
    unfold Memory.write at hc
    rcases List.mem_append.mp hc with hc | hc
    · rcases List.mem_append.mp hc with hc | hc
      · exact hcells c (List.mem_filter.mp hc).1
      · obtain ⟨_, h2, h3⟩ := Memory.cellsAt_mem hc
        exact ⟨by omega, h3⟩
    · exact hcells c (List.mem_filter.mp hc).1

/-- What reset draws is in canonical form. -/
theorem Memory.wf_ofDraws (draws : List Host.Cell) (size : Nat) :
    Memory.wf (Memory.ofDraws draws size) size := by
  have go : ∀ (l : List Host.Cell) (m : Memory), Memory.wf m size →
      Memory.wf (l.foldl (fun m c => if c.1 < size then Memory.write m c.1 [c.2] else m) m) size := by
    intro l
    induction l with
    | nil => exact fun m hm => hm
    | cons c l ih =>
      intro m hm
      rw [List.foldl_cons]
      split
      · exact ih _ (Memory.wf_write hm (by simp only [List.length_singleton]; omega))
      · exact ih _ hm
  exact go draws [] (Memory.wf_nil size)

/-- In canonical form an index is listed exactly where it does not read as the unlisted byte. -/
theorem Memory.listed_iff {m : Memory} {size k : Nat} {b : Byte} (hm : Memory.wf m size) :
    (k, b) ∈ m ↔ Memory.read m k = b ∧ b ≠ Memory.unlisted := by
  induction m with
  | nil =>
    simp only [List.not_mem_nil, Memory.read, false_iff, not_and, not_not]
    exact fun h => h.symm
  | cons c m ih =>
    obtain ⟨a, d⟩ := c
    obtain ⟨hsorted, hcells⟩ := hm
    rw [List.pairwise_cons] at hsorted
    have hd := (hcells (a, d) (by simp)).2
    have ih := ih ⟨hsorted.2, fun c hc => hcells c (by simp [hc])⟩
    by_cases hak : a = k
    · subst hak
      have hno : (a, b) ∉ m := fun h => absurd (hsorted.1 _ h) (by simp)
      simp only [List.mem_cons, hno, or_false, Memory.read, if_true, Prod.mk.injEq, true_and]
      constructor
      · rintro rfl
        exact ⟨rfl, hd⟩
      · exact fun h => h.1.symm
    · have hka : ¬ k = a := fun h => hak h.symm
      simp only [List.mem_cons, Prod.mk.injEq, hka, false_and, false_or, Memory.read, if_neg hak]
      exact ih

/-- Equal contents in canonical form are equal data. -/
theorem Memory.eq_of_read_eq {m₁ m₂ : Memory} {size : Nat} (h₁ : Memory.wf m₁ size)
    (h₂ : Memory.wf m₂ size) (h : ∀ k, Memory.read m₁ k = Memory.read m₂ k) : m₁ = m₂ := by
  have hnd : ∀ {m : Memory}, Memory.wf m size → m.Nodup := fun hm =>
    hm.1.imp fun hlt heq => by simp [heq] at hlt
  have hperm : m₁.Perm m₂ := (List.perm_ext_iff_of_nodup (hnd h₁) (hnd h₂)).mpr fun c => by
    rw [show c = (c.1, c.2) from rfl, Memory.listed_iff h₁, Memory.listed_iff h₂, h]
  exact hperm.eq_of_pairwise (fun a b _ _ hab hba => absurd hab (by omega)) h₁.1 h₂.1

@[simp] theorem Memory.bytes_length (m : Memory) (base n : Nat) :
    (Memory.bytes m base n).length = n := by
  simp [Memory.bytes]

/-- Byte j of a stretch of memory. -/
theorem Memory.bytes_getElem {m : Memory} {base n j : Nat} (h : j < (Memory.bytes m base n).length) :
    (Memory.bytes m base n)[j] = Memory.read m (base + j) := by
  simp [Memory.bytes]

/-- The bytes just written read back. -/
theorem Memory.bytes_write (m : Memory) (base : Nat) (bs : List Byte) :
    Memory.bytes (Memory.write m base bs) base bs.length = bs := by
  apply List.ext_getElem (by simp)
  intro j h₁ h₂
  rw [Memory.bytes_getElem h₁, Memory.read_write_inside h₂]
  simp [h₂]

end Sys2Proof.Machine
end

