-- ==== Sys2Proof/Laws/Parameters.lean ====
section
/-! SUPPORT. The parameters at R9's values: what each is, and that the tests they enter into are those
of the spec's pseudocode. -/

namespace Sys2Proof

@[simp] theorem Config.params_rMax : Config.params.rMax = 255 := rfl

theorem Config.params_tMax : Config.params.tMax = 514 := rfl

@[simp] theorem Config.params_cMax : Config.params.cMax = 8 := rfl

@[simp] theorem Config.params_inBufBytes : Config.params.inBufBytes = 4096 := rfl

@[simp] theorem Config.params_outBufBytes : Config.params.outBufBytes = 4096 := rfl

@[simp] theorem Config.params_busBits : Config.params.busBits = 32 := rfl

@[simp] theorem Config.params_windowBytes : Config.params.windowBytes = 0x4000 := rfl

theorem Config.params_wf : Config.params.wf = true := rfl

/-- What the register map has room for, as arithmetic. -/
theorem Params.wf_iff {p : Params} : p.wf = true ↔
    p.rMax ≤ 255 ∧ p.tMax = 2 * p.rMax + 4 ∧ p.cMax ≤ 8 ∧ p.inBufBytes ≤ 4096 ∧
      p.inBufBytes % 4 = 0 ∧ p.outBufBytes ≤ 4096 ∧ p.outBufBytes % 4 = 0 ∧
      p.inBufBytes ≤ p.outBufBytes ∧ p.busBits = 32 ∧ p.windowBytes = 0x4000 := by
  simp only [Params.wf, Bool.and_eq_true, decide_eq_true_eq, beq_iff_eq, and_assoc]

namespace Machine

/-- With C_MAX = 8 every KEY register is there. -/
@[simp] theorem Reg.present_default (r : Reg) : r.present Config.params = true := by
  cases r with
  | key i => exact decide_eq_true i.isLt
  | _ => rfl

/-- The map of R62, at the sizes of R9. -/
theorem regionAt_default (a : Offset) : regionAt a =
    if a.toNat < 0x0060 then
      match regAt (a.toNat / 4) with
      | some r => .reg r
      | none => .reserved
    else if a.toNat < 0x1000 then .reserved
    else if a.toNat < 0x2000 then .inBuf (a.toNat - 0x1000)
    else if a.toNat < 0x3000 then .outBuf (a.toNat - 0x2000)
    else .reserved := by
  simp only [regionAt, Reg.present_default, if_true, Config.params_inBufBytes,
    Config.params_outBufBytes]
  split
  · rfl
  · split
    · rfl
    · split
      · exact if_pos (by omega)
      · split
        · exact if_pos (by omega)
        · rfl

/-- The legal key lengths are those of R144. -/
@[simp] theorem legalKeyLen_default (b : Nat) :
    legalKeyLen b = (b == 16 || b == 24 || b == 32) := by
  have hfits : (b == 16 || b == 24 || b == 32) = true → b ≤ 32 := by
    simp only [Bool.or_eq_true, beq_iff_eq]
    omega
  unfold legalKeyLen
  cases h : (b == 16 || b == 24 || b == 32)
  · rfl
  · exact decide_eq_true (hfits h)

/-- A round count of 0 is never legal (R144). -/
@[simp] theorem legalRounds_zero (p : Params) : legalRounds 0 p = false := rfl

/-- Every value of ROUNDS but 0 is a legal round count (R144, R224). -/
@[simp] theorem legalRounds_default (r : BitVec 8) :
    legalRounds r.toNat = decide (r ≠ 0#8) := by
  have hmax : r.toNat ≤ 255 := by have := r.isLt; omega
  unfold legalRounds
  rw [Config.params_rMax, decide_eq_true hmax, Bool.and_true]
  by_cases h : r = 0#8
  · simp [h]
  · have hne : r.toNat ≠ 0 := fun h0 => h (BitVec.eq_of_toNat_eq (by simpa using h0))
    simp [h, hne]

/-- `exec` is `execWith` at R9's values. -/
theorem execWith_default (i : Instr) (s : State) : execWith Config.params i s = exec i s := by
  cases i <;> rfl

end Machine

end Sys2Proof
end

