-- ==== Sys2Proof/Laws/State.lean ====
section
/-! SUPPORT. One lemma per field per update of the state, true by rfl: no later proof unfolds a
record update. -/

namespace Sys2Proof.Machine

@[simp] theorem Status.accept_busy (st : Status) :
    st.accept.busy = true := rfl

@[simp] theorem Status.accept_done (st : Status) :
    st.accept.done = false := rfl

@[simp] theorem Status.accept_err (st : Status) :
    st.accept.err = false := rfl

@[simp] theorem Status.accept_lockErr (st : Status) :
    st.accept.lockErr = st.lockErr := rfl

@[simp] theorem Status.accept_errCode (st : Status) :
    st.accept.errCode = 0#4 := rfl

@[simp] theorem Status.accept_keyValid (st : Status) :
    st.accept.keyValid = st.keyValid := rfl

@[simp] theorem Status.complete_busy (st : Status) :
    st.complete.busy = false := rfl

@[simp] theorem Status.complete_done (st : Status) :
    st.complete.done = true := rfl

@[simp] theorem Status.complete_err (st : Status) :
    st.complete.err = st.err := rfl

@[simp] theorem Status.complete_lockErr (st : Status) :
    st.complete.lockErr = st.lockErr := rfl

@[simp] theorem Status.complete_errCode (st : Status) :
    st.complete.errCode = st.errCode := rfl

@[simp] theorem Status.complete_keyValid (st : Status) :
    st.complete.keyValid = st.keyValid := rfl

@[simp] theorem Status.fail_busy (st : Status) (e : ErrCode) :
    (st.fail e).busy = false := rfl

@[simp] theorem Status.fail_done (st : Status) (e : ErrCode) :
    (st.fail e).done = true := rfl

@[simp] theorem Status.fail_err (st : Status) (e : ErrCode) :
    (st.fail e).err = true := rfl

@[simp] theorem Status.fail_lockErr (st : Status) (e : ErrCode) :
    (st.fail e).lockErr = st.lockErr := rfl

@[simp] theorem Status.fail_errCode (st : Status) (e : ErrCode) :
    (st.fail e).errCode = e.code := rfl

@[simp] theorem Status.fail_keyValid (st : Status) (e : ErrCode) :
    (st.fail e).keyValid = st.keyValid := rfl

@[simp] theorem Status.writeOneToClear_busy (st : Status) (v : Word) :
    (st.writeOneToClear v).busy = st.busy := rfl

@[simp] theorem Status.writeOneToClear_done (st : Status) (v : Word) :
    (st.writeOneToClear v).done = (if v.getLsbD 1 then false else st.done) := rfl

@[simp] theorem Status.writeOneToClear_err (st : Status) (v : Word) :
    (st.writeOneToClear v).err = st.err := rfl

@[simp] theorem Status.writeOneToClear_lockErr (st : Status) (v : Word) :
    (st.writeOneToClear v).lockErr = (if v.getLsbD 3 then false else st.lockErr) := rfl

@[simp] theorem Status.writeOneToClear_errCode (st : Status) (v : Word) :
    (st.writeOneToClear v).errCode = st.errCode := rfl

@[simp] theorem Status.writeOneToClear_keyValid (st : Status) (v : Word) :
    (st.writeOneToClear v).keyValid = st.keyValid := rfl

@[simp] theorem CoreState.setLockErr_ctrl (c : CoreState) :
    c.setLockErr.ctrl = c.ctrl := rfl

@[simp] theorem CoreState.setLockErr_status (c : CoreState) :
    c.setLockErr.status = { c.status with lockErr := true } := rfl

@[simp] theorem CoreState.setLockErr_doneIe (c : CoreState) :
    c.setLockErr.doneIe = c.doneIe := rfl

@[simp] theorem CoreState.setLockErr_inLen (c : CoreState) :
    c.setLockErr.inLen = c.inLen := rfl

@[simp] theorem CoreState.setLockErr_outLen (c : CoreState) :
    c.setLockErr.outLen = c.outLen := rfl

@[simp] theorem CoreState.setLockErr_active (c : CoreState) :
    c.setLockErr.active = c.active := rfl

@[simp] theorem CoreState.setLockErr_key (c : CoreState) :
    c.setLockErr.key = c.key := rfl

@[simp] theorem CoreState.setLockErr_blk (c : CoreState) :
    c.setLockErr.blk = c.blk := rfl

@[simp] theorem CoreState.setLockErr_iv (c : CoreState) :
    c.setLockErr.iv = c.iv := rfl

@[simp] theorem CoreState.setLockErr_sched (c : CoreState) :
    c.setLockErr.sched = c.sched := rfl

@[simp] theorem CoreState.setLockErr_inBuf (c : CoreState) :
    c.setLockErr.inBuf = c.inBuf := rfl

@[simp] theorem CoreState.setLockErr_outBuf (c : CoreState) :
    c.setLockErr.outBuf = c.outBuf := rfl

@[simp] theorem CoreState.setLockErr_pending (c : CoreState) :
    c.setLockErr.pending = c.pending := rfl

@[simp] theorem CoreState.accept_ctrl (c : CoreState) (w : Word) (p : Params) :
    (c.accept w p).ctrl = c.ctrl := rfl

@[simp] theorem CoreState.accept_status (c : CoreState) (w : Word) (p : Params) :
    (c.accept w p).status = c.status.accept := rfl

@[simp] theorem CoreState.accept_doneIe (c : CoreState) (w : Word) (p : Params) :
    (c.accept w p).doneIe = c.doneIe := rfl

@[simp] theorem CoreState.accept_inLen (c : CoreState) (w : Word) (p : Params) :
    (c.accept w p).inLen = c.inLen := rfl

@[simp] theorem CoreState.accept_outLen (c : CoreState) (w : Word) (p : Params) :
    (c.accept w p).outLen = c.outLen := rfl

@[simp] theorem CoreState.accept_active (c : CoreState) (w : Word) (p : Params) :
    (c.accept w p).active = c.active := rfl

@[simp] theorem CoreState.accept_key (c : CoreState) (w : Word) (p : Params) :
    (c.accept w p).key = c.key := rfl

@[simp] theorem CoreState.accept_blk (c : CoreState) (w : Word) (p : Params) :
    (c.accept w p).blk = c.blk := rfl

@[simp] theorem CoreState.accept_iv (c : CoreState) (w : Word) (p : Params) :
    (c.accept w p).iv = c.iv := rfl

@[simp] theorem CoreState.accept_sched (c : CoreState) (w : Word) (p : Params) :
    (c.accept w p).sched = c.sched := rfl

@[simp] theorem CoreState.accept_inBuf (c : CoreState) (w : Word) (p : Params) :
    (c.accept w p).inBuf = c.inBuf := rfl

@[simp] theorem CoreState.accept_outBuf (c : CoreState) (w : Word) (p : Params) :
    (c.accept w p).outBuf = c.outBuf := rfl

@[simp] theorem CoreState.accept_pending (c : CoreState) (w : Word) (p : Params) :
    (c.accept w p).pending = some { word := w, ops := c.capture p } := rfl

@[simp] theorem CoreState.complete_ctrl (c : CoreState) :
    c.complete.ctrl = c.ctrl := rfl

@[simp] theorem CoreState.complete_status (c : CoreState) :
    c.complete.status = c.status.complete := rfl

@[simp] theorem CoreState.complete_doneIe (c : CoreState) :
    c.complete.doneIe = c.doneIe := rfl

@[simp] theorem CoreState.complete_inLen (c : CoreState) :
    c.complete.inLen = c.inLen := rfl

@[simp] theorem CoreState.complete_outLen (c : CoreState) :
    c.complete.outLen = c.outLen := rfl

@[simp] theorem CoreState.complete_active (c : CoreState) :
    c.complete.active = c.active := rfl

@[simp] theorem CoreState.complete_key (c : CoreState) :
    c.complete.key = c.key := rfl

@[simp] theorem CoreState.complete_blk (c : CoreState) :
    c.complete.blk = c.blk := rfl

@[simp] theorem CoreState.complete_iv (c : CoreState) :
    c.complete.iv = c.iv := rfl

@[simp] theorem CoreState.complete_sched (c : CoreState) :
    c.complete.sched = c.sched := rfl

@[simp] theorem CoreState.complete_inBuf (c : CoreState) :
    c.complete.inBuf = c.inBuf := rfl

@[simp] theorem CoreState.complete_outBuf (c : CoreState) :
    c.complete.outBuf = c.outBuf := rfl

@[simp] theorem CoreState.complete_pending (c : CoreState) :
    c.complete.pending = none := rfl

@[simp] theorem CoreState.fail_ctrl (c : CoreState) (b : Bool) (e : ErrCode) :
    (c.fail b e).ctrl = c.ctrl := rfl

@[simp] theorem CoreState.fail_status (c : CoreState) (b : Bool) (e : ErrCode) :
    (c.fail b e).status = c.status.fail e := rfl

@[simp] theorem CoreState.fail_doneIe (c : CoreState) (b : Bool) (e : ErrCode) :
    (c.fail b e).doneIe = c.doneIe := rfl

@[simp] theorem CoreState.fail_inLen (c : CoreState) (b : Bool) (e : ErrCode) :
    (c.fail b e).inLen = c.inLen := rfl

@[simp] theorem CoreState.fail_outLen (c : CoreState) (b : Bool) (e : ErrCode) :
    (c.fail b e).outLen = (if b then 0#32 else c.outLen) := rfl

@[simp] theorem CoreState.fail_active (c : CoreState) (b : Bool) (e : ErrCode) :
    (c.fail b e).active = c.active := rfl

@[simp] theorem CoreState.fail_key (c : CoreState) (b : Bool) (e : ErrCode) :
    (c.fail b e).key = c.key := rfl

@[simp] theorem CoreState.fail_blk (c : CoreState) (b : Bool) (e : ErrCode) :
    (c.fail b e).blk = c.blk := rfl

@[simp] theorem CoreState.fail_iv (c : CoreState) (b : Bool) (e : ErrCode) :
    (c.fail b e).iv = c.iv := rfl

@[simp] theorem CoreState.fail_sched (c : CoreState) (b : Bool) (e : ErrCode) :
    (c.fail b e).sched = c.sched := rfl

@[simp] theorem CoreState.fail_inBuf (c : CoreState) (b : Bool) (e : ErrCode) :
    (c.fail b e).inBuf = c.inBuf := rfl

@[simp] theorem CoreState.fail_outBuf (c : CoreState) (b : Bool) (e : ErrCode) :
    (c.fail b e).outBuf = c.outBuf := rfl

@[simp] theorem CoreState.fail_pending (c : CoreState) (b : Bool) (e : ErrCode) :
    (c.fail b e).pending = none := rfl

@[simp] theorem CoreState.deliver_ctrl (c : CoreState) (out : List Byte) :
    (c.deliver out).ctrl = c.ctrl := rfl

@[simp] theorem CoreState.deliver_status (c : CoreState) (out : List Byte) :
    (c.deliver out).status = c.status := rfl

@[simp] theorem CoreState.deliver_doneIe (c : CoreState) (out : List Byte) :
    (c.deliver out).doneIe = c.doneIe := rfl

@[simp] theorem CoreState.deliver_inLen (c : CoreState) (out : List Byte) :
    (c.deliver out).inLen = c.inLen := rfl

@[simp] theorem CoreState.deliver_outLen (c : CoreState) (out : List Byte) :
    (c.deliver out).outLen = BitVec.ofNat 32 out.length := rfl

@[simp] theorem CoreState.deliver_active (c : CoreState) (out : List Byte) :
    (c.deliver out).active = c.active := rfl

@[simp] theorem CoreState.deliver_key (c : CoreState) (out : List Byte) :
    (c.deliver out).key = c.key := rfl

@[simp] theorem CoreState.deliver_blk (c : CoreState) (out : List Byte) :
    (c.deliver out).blk = c.blk := rfl

@[simp] theorem CoreState.deliver_iv (c : CoreState) (out : List Byte) :
    (c.deliver out).iv = c.iv := rfl

@[simp] theorem CoreState.deliver_sched (c : CoreState) (out : List Byte) :
    (c.deliver out).sched = c.sched := rfl

@[simp] theorem CoreState.deliver_inBuf (c : CoreState) (out : List Byte) :
    (c.deliver out).inBuf = c.inBuf := rfl

@[simp] theorem CoreState.deliver_outBuf (c : CoreState) (out : List Byte) :
    (c.deliver out).outBuf = Memory.write c.outBuf 0 out := rfl

@[simp] theorem CoreState.deliver_pending (c : CoreState) (out : List Byte) :
    (c.deliver out).pending = c.pending := rfl

@[simp] theorem State.afterMove_core (s : State) :
    s.afterMove.core = s.core := rfl

@[simp] theorem State.afterMove_rstN (s : State) :
    s.afterMove.rstN = s.rstN := rfl

@[simp] theorem State.afterMove_entropy (s : State) :
    s.afterMove.entropy = s.entropy := rfl

@[simp] theorem State.afterMove_inputs (s : State) :
    s.afterMove.inputs = s.inputs.tail := rfl

@[simp] theorem State.afterMove_resp (s : State) :
    s.afterMove.resp = s.resp := rfl

@[simp] theorem State.applyEntropy_core (s : State) (o : Option EntropyWord) :
    (s.applyEntropy o).core = s.core := rfl

@[simp] theorem State.applyEntropy_rstN (s : State) (o : Option EntropyWord) :
    (s.applyEntropy o).rstN = s.rstN := rfl

@[simp] theorem State.applyEntropy_entropy (s : State) (o : Option EntropyWord) :
    (s.applyEntropy o).entropy = o := rfl

@[simp] theorem State.applyEntropy_inputs (s : State) (o : Option EntropyWord) :
    (s.applyEntropy o).inputs = s.inputs := rfl

@[simp] theorem State.applyEntropy_resp (s : State) (o : Option EntropyWord) :
    (s.applyEntropy o).resp = s.resp := rfl

@[simp] theorem State.applyResetLow_core (s : State) (d : List Host.Cell) (p : Params) :
    (s.applyResetLow d p).core = CoreState.reset (Memory.ofDraws d p.inBufBytes) p := rfl

@[simp] theorem State.applyResetLow_rstN (s : State) (d : List Host.Cell) (p : Params) :
    (s.applyResetLow d p).rstN = false := rfl

@[simp] theorem State.applyResetLow_entropy (s : State) (d : List Host.Cell) (p : Params) :
    (s.applyResetLow d p).entropy = s.entropy := rfl

@[simp] theorem State.applyResetLow_inputs (s : State) (d : List Host.Cell) (p : Params) :
    (s.applyResetLow d p).inputs = s.inputs := rfl

@[simp] theorem State.applyResetLow_resp (s : State) (d : List Host.Cell) (p : Params) :
    (s.applyResetLow d p).resp = none := rfl

@[simp] theorem State.withPendingWord_core (s : State) (w : Word) (p : Params) :
    (s.withPendingWord w p).core = s.core.accept w p := rfl

@[simp] theorem State.withPendingWord_rstN (s : State) (w : Word) (p : Params) :
    (s.withPendingWord w p).rstN = true := rfl

@[simp] theorem State.withPendingWord_entropy (s : State) (w : Word) (p : Params) :
    (s.withPendingWord w p).entropy = s.entropy := rfl

@[simp] theorem State.withPendingWord_inputs (s : State) (w : Word) (p : Params) :
    (s.withPendingWord w p).inputs = s.inputs := rfl

@[simp] theorem State.withPendingWord_resp (s : State) (w : Word) (p : Params) :
    (s.withPendingWord w p).resp = s.resp := rfl

@[simp] theorem CoreState.capture_ctrl (c : CoreState) (p : Params) :
    (c.capture p).ctrl = c.ctrl := rfl

@[simp] theorem CoreState.capture_inLen (c : CoreState) (p : Params) :
    (c.capture p).inLen = c.inLen := rfl

@[simp] theorem CoreState.capture_key (c : CoreState) (p : Params) :
    (c.capture p).key = c.key := rfl

@[simp] theorem CoreState.capture_blk (c : CoreState) (p : Params) :
    (c.capture p).blk = c.blk := rfl

@[simp] theorem CoreState.capture_iv (c : CoreState) (p : Params) :
    (c.capture p).iv = c.iv := rfl

@[simp] theorem CoreState.capture_inBytes (c : CoreState) (p : Params) :
    (c.capture p).inBytes = Memory.bytes c.inBuf 0 (min c.inLen.toNat p.inBufBytes) := rfl

@[simp] theorem CoreState.capture_keyValid (c : CoreState) (p : Params) :
    (c.capture p).keyValid = c.status.keyValid := rfl

@[simp] theorem CoreState.capture_active (c : CoreState) (p : Params) :
    (c.capture p).active = c.active := rfl

@[simp] theorem CoreState.capture_sched (c : CoreState) (p : Params) :
    (c.capture p).sched = c.activeSchedule := rfl

@[simp] theorem CoreState.reset_ctrl (m : Memory) (p : Params) :
    (CoreState.reset m p).ctrl = Ctrl.reset := rfl

@[simp] theorem CoreState.reset_status (m : Memory) (p : Params) :
    (CoreState.reset m p).status = Status.reset := rfl

@[simp] theorem CoreState.reset_doneIe (m : Memory) (p : Params) :
    (CoreState.reset m p).doneIe = false := rfl

@[simp] theorem CoreState.reset_inLen (m : Memory) (p : Params) :
    (CoreState.reset m p).inLen = 0#32 := rfl

@[simp] theorem CoreState.reset_outLen (m : Memory) (p : Params) :
    (CoreState.reset m p).outLen = 0#32 := rfl

@[simp] theorem CoreState.reset_active (m : Memory) (p : Params) :
    (CoreState.reset m p).active = Active.reset := rfl

@[simp] theorem CoreState.reset_key (m : Memory) (p : Params) :
    (CoreState.reset m p).key = Vector.replicate 8 0#32 := rfl

@[simp] theorem CoreState.reset_blk (m : Memory) (p : Params) :
    (CoreState.reset m p).blk = Quad.zero := rfl

@[simp] theorem CoreState.reset_iv (m : Memory) (p : Params) :
    (CoreState.reset m p).iv = Quad.zero := rfl

@[simp] theorem CoreState.reset_sched (m : Memory) (p : Params) :
    (CoreState.reset m p).sched = List.replicate p.tMax 0#32 := by
  simp only [CoreState.reset]

@[simp] theorem CoreState.reset_inBuf (m : Memory) (p : Params) :
    (CoreState.reset m p).inBuf = m := rfl

@[simp] theorem CoreState.reset_outBuf (m : Memory) (p : Params) :
    (CoreState.reset m p).outBuf = [] := rfl

@[simp] theorem CoreState.reset_pending (m : Memory) (p : Params) :
    (CoreState.reset m p).pending = none := rfl

end Sys2Proof.Machine
end

