-- ==== Sys2Proof/Laws/Bus.lean ====
section
/-! SUPPORT. Everything a bus transaction can do to the core, said once (R67, R70, R71). -/

namespace Sys2Proof.Machine

/-- Byte j of the value of a list of bytes is its j-th byte (R63). -/
theorem byteLane_leValue (bs : List Byte) {j : Nat} (hj : j < 4) :
    byteLane (leValue bs) j = bs.getD j 0#8 := by
  induction bs generalizing j with
  | nil => simp [leValue, byteLane]
  | cons b bs ih =>
    apply BitVec.eq_of_getLsbD_eq
    intro i hi
    cases j with
    | zero =>
      have h32 : i < 32 := by omega
      simp [leValue, byteLane, hi, h32]
    | succ j =>
      rw [List.getD_cons_succ, ← ih (by omega)]
      have hlow : b.getLsbD (8 * (j + 1) + i) = false := BitVec.getLsbD_of_ge _ _ (by omega)
      have hsub : 8 * (j + 1) + i - 8 = 8 * j + i := by omega
      have h32 : 8 * (j + 1) + i < 32 := by omega
      simp only [leValue, byteLane, BitVec.getLsbD_extractLsb', hi, decide_true, Bool.true_and,
        BitVec.getLsbD_or, BitVec.getLsbD_setWidth, BitVec.getLsbD_shiftLeft, hlow, hsub, h32,
        Bool.and_false, Bool.false_or]
      simpa using fun _ => by omega

/-- The value of n bytes has no bits above them (R63). -/
theorem leValue_lt (bs : List Byte) : (leValue bs).toNat < 2 ^ (8 * bs.length) := by
  induction bs with
  | nil => simp [leValue]
  | cons b bs ih =>
    have hpow : 2 ^ (8 * (b :: bs).length) = 2 ^ (8 * bs.length) * 2 ^ 8 := by
      rw [List.length_cons, ← Nat.pow_add]; rfl
    simp only [leValue, BitVec.toNat_or]
    apply Nat.or_lt_two_pow
    · calc (b.setWidth 32).toNat ≤ b.toNat := by simp [Nat.mod_le]
        _ < 2 ^ 8 := b.isLt
        _ ≤ 2 ^ (8 * (b :: bs).length) := Nat.pow_le_pow_right (by decide) (by simp)
    · calc (leValue bs <<< 8).toNat ≤ (leValue bs).toNat * 2 ^ 8 := by
            rw [BitVec.toNat_shiftLeft, Nat.shiftLeft_eq]; exact Nat.mod_le _ _
        _ < 2 ^ (8 * bs.length) * 2 ^ 8 := Nat.mul_lt_mul_of_pos_right ih (by decide)
        _ = 2 ^ (8 * (b :: bs).length) := hpow.symm

theorem widthBytes_pos (n : Width) : 0 < widthBytes n := by
  cases n <;> decide

/-- An InBuf index is its offset above `0x1000`, below the buffer's size (R37, R62). -/
theorem regionAt_inBuf {a : Offset} {p : Params} {k : Nat} (hr : regionAt a p = .inBuf k) :
    a.toNat = 0x1000 + k ∧ k < p.inBufBytes := by
  unfold regionAt at hr
  split at hr
  · split at hr
    · split at hr <;> cases hr
    · cases hr
  · split at hr
    · cases hr
    · split at hr
      · split at hr
        · injection hr
          omega
        · cases hr
      · split at hr
        · split at hr <;> cases hr
        · cases hr

/-- An aligned access to InBuf stays inside it (R62, R64). -/
theorem inBuf_access_fits {a : Offset} {n : Width} {k : Nat} {p : Params} (hp : p.wf = true)
    (ha : a.toNat % widthBytes n = 0) (hr : regionAt a p = .inBuf k) :
    k + widthBytes n ≤ p.inBufBytes := by
  obtain ⟨hk, hlt⟩ := regionAt_inBuf hr
  have hsize := (Params.wf_iff.mp hp).2.2.2.2.1
  cases n <;> simp only [widthBytes] at ha ⊢ <;> omega

/-- A read changes nothing but LOCKERR, and that only when it is refused while busy (R67, R70). -/
theorem memRead_core (a : Offset) (n : Width) (c : CoreState) (p : Params) :
    (memRead a n c p).2 = c ∨
      (c.status.busy = true ∧ (memRead a n c p).1 = errorResponse ∧
        (memRead a n c p).2 = c.setLockErr) := by
  unfold memRead
  split
  · exact .inl rfl
  · split
    · exact .inl rfl
    · split
      · exact .inl rfl
      · split
        · rename_i h
          simp only [Bool.and_eq_true] at h
          exact .inr ⟨h.1, rfl, rfl⟩
        · exact .inl rfl
    · split
      · exact .inr ⟨by assumption, rfl, rfl⟩
      · exact .inl rfl
    · split
      · exact .inr ⟨by assumption, rfl, rfl⟩
      · exact .inl rfl

/-- Everything a write can do (R71): nothing; LOCKERR on a refusal while busy; acceptance while
idle; a register's store; bytes of InBuf while idle. -/
theorem memWrite_core (a : Offset) (n : Width) (v : Word) (c : CoreState) {p : Params}
    (hp : p.wf = true) :
    (memWrite a n v c p).2 = c ∨
    (c.status.busy = true ∧ (memWrite a n v c p).2 = c.setLockErr) ∨
    (c.status.busy = false ∧ (memWrite a n v c p).2 = c.accept v p) ∨
    (∃ r, (c.status.busy && r.writeLocked) = false ∧ (memWrite a n v c p).2 = regStore r v c) ∨
    (∃ k, c.status.busy = false ∧ k + widthBytes n ≤ p.inBufBytes ∧
      (memWrite a n v c p).2 =
        { c with inBuf := Memory.write c.inBuf k (laneBytes v (widthBytes n)) }) := by
  unfold memWrite
  split
  · exact .inl rfl
  · rename_i ha
    simp only [ne_eq, not_not] at ha
    split
    · exact .inl rfl
    · split
      · exact .inl rfl
      · split
        · unfold cmdWrite
          split
          · exact .inr (.inl ⟨by assumption, rfl⟩)
          · rename_i h
            exact .inr (.inr (.inl ⟨by simpa using h, rfl⟩))
        · split
          · exact .inl rfl
          · split
            · rename_i h
              simp only [Bool.and_eq_true] at h
              exact .inr (.inl ⟨h.1, rfl⟩)
            · rename_i r _ _ _ _ h
              exact .inr (.inr (.inr (.inl ⟨r, by simpa using h, rfl⟩)))
    · rename_i k hr
      split
      · exact .inr (.inl ⟨by assumption, rfl⟩)
      · rename_i h
        exact .inr (.inr (.inr (.inr ⟨k, by simpa using h, inBuf_access_fits hp ha hr, rfl⟩)))
    · split
      · exact .inr (.inl ⟨by assumption, rfl⟩)
      · exact .inl rfl

end Sys2Proof.Machine
end

