-- ==== Sys2Proof/Laws/Commands.lean ====
section
/-! SUPPORT. What the shared operations under the commands can answer, said once: the completion
step, acceptance, and the lengths of what the codec, the padding and the chaining produce. -/

namespace Sys2Proof.Machine

/-- Everything `State.finish` can do: an ordinary completion of the updated core, or an error
completion of the core as it was. -/
theorem State.finish_cases (s : State) (b : Bool) (r : Except ErrCode CoreState) :
    (∃ c, r = .ok c ∧ s.finish b r = .next { s with core := c.complete }) ∨
    (∃ e, r = .error e ∧ s.finish b r = .next { s with core := s.core.fail b e }) := by
  cases r with
  | ok c => exact .inl ⟨c, rfl, rfl⟩
  | error e => exact .inr ⟨e, rfl, rfl⟩

@[simp] theorem State.finish_ok (s : State) (b : Bool) (c : CoreState) :
    s.finish b (.ok c) = .next { s with core := c.complete } := rfl

@[simp] theorem State.finish_error (s : State) (b : Bool) (e : ErrCode) :
    s.finish b (.error e) = .next { s with core := s.core.fail b e } := rfl

/-- The operands of a pending command are the captured ones. -/
theorem CoreState.operands_of_pending {c : CoreState} {q : Pending} (h : c.pending = some q)
    (p : Params) : c.operands p = q.ops := by
  simp only [CoreState.operands, h]

/-- With coherent operands, a command works on the registers as they stand (R111). -/
theorem CoreState.Coherent.operands_eq {c : CoreState} {p : Params} (h : c.Coherent p) :
    c.operands p = c.capture p := by
  unfold CoreState.operands
  cases hq : c.pending with
  | none => rfl
  | some q => exact h q hq

/-- What KEY_EXPAND can answer (R145). -/
theorem keyExpand_cases (ops : Operands) (c : CoreState) (p : Params) :
    (legalKeyLen ops.ctrl.keyLen.toNat p = false ∧ keyExpand ops c p = .error .invalidKeyLength) ∨
    (legalKeyLen ops.ctrl.keyLen.toNat p = true ∧ legalRounds ops.ctrl.rounds.toNat p = false ∧
      keyExpand ops c p = .error .invalidRounds) ∨
    (legalKeyLen ops.ctrl.keyLen.toNat p = true ∧ legalRounds ops.ctrl.rounds.toNat p = true ∧
      keyExpand ops c p = .ok { c with
        sched := storeSchedule c.sched (expand ops.keyBytes ops.ctrl.rounds.toNat)
        active := { schedR := ops.ctrl.rounds, schedKLen := ops.ctrl.keyLen }
        status := { c.status with keyValid := true } }) := by
  unfold keyExpand
  cases hl : legalKeyLen ops.ctrl.keyLen.toNat p
  · exact .inl ⟨rfl, rfl⟩
  · cases hr : legalRounds ops.ctrl.rounds.toNat p
    · exact .inr (.inl ⟨rfl, rfl, rfl⟩)
    · exact .inr (.inr ⟨rfl, rfl, rfl⟩)

/-- What PAD can answer (R183). -/
theorem padMessage_cases (ops : Operands) (c : CoreState) (p : Params) :
    padMessage ops c p = .error .invalidLength ∨
    (ops.inLen.toNat ≤ p.inBufBytes ∧
      16 * (ops.inLen.toNat / 16) + 16 ≤ p.outBufBytes ∧
      padMessage ops c p = .ok (c.deliver (padBytes ops.inBytes))) := by
  unfold padMessage
  split
  · exact .inl rfl
  · split
    · exact .inl rfl
    · exact .inr ⟨by omega, by omega, rfl⟩

/-- What UNPAD can answer (R184). -/
theorem unpadMessage_cases (ops : Operands) (c : CoreState) (p : Params) :
    unpadMessage ops c p = .error .invalidLength ∨
    unpadMessage ops c p = .error .invalidPadding ∨
    (ops.inLen.toNat ≤ p.inBufBytes ∧ ∃ m, unpadBytes ops.inBytes = some m ∧
      unpadMessage ops c p = .ok (c.deliver m)) := by
  unfold unpadMessage
  split
  · exact .inl rfl
  · split
    · exact .inr (.inl rfl)
    · rename_i m hm
      exact .inr (.inr ⟨by omega, m, hm, rfl⟩)

/-- The checks of CBC_ENC pass exactly under these bounds (R204). -/
theorem cbcEncCheck_none {ops : Operands} {p : Params} (h : cbcEncCheck ops p = none) :
    ops.keyValid = true ∧ ops.inLen.toNat ≤ p.inBufBytes ∧
      32 + 16 * (ops.inLen.toNat / 16) ≤ p.outBufBytes := by
  unfold cbcEncCheck at h
  split at h
  · cases h
  · rename_i hk
    split at h
    · cases h
    · split at h
      · cases h
      · exact ⟨by simpa using hk, by omega, by omega⟩

/-- What CBC_ENC can do (R204, R267): fail, wait, or encrypt with an IV of 16 bytes. -/
theorem completeCbcEnc_cases (p : Params) (s : State) :
    (∃ e, cbcEncCheck (s.core.operands p) p = some e ∧
      completeCbcEnc p s = .next { s with core := s.core.fail true e }) ∨
    (cbcEncCheck (s.core.operands p) p = none ∧ (s.core.operands p).ctrl.ivMode = false ∧
      s.entropy = none ∧ completeCbcEnc p s = .next s) ∨
    (∃ iv, cbcEncCheck (s.core.operands p) p = none ∧
      selectIv (s.core.operands p) s.entropy = some iv ∧
      completeCbcEnc p s = .next { s with
        entropy := offerAfter (s.core.operands p) s.entropy
        core := (cbcEncrypt (s.core.operands p) iv s.core).complete }) := by
  unfold completeCbcEnc
  cases hc : cbcEncCheck (s.core.operands p) p with
  | some e => exact .inl ⟨e, rfl, rfl⟩
  | none =>
    cases hs : selectIv (s.core.operands p) s.entropy with
    | none =>
      refine .inr (.inl ⟨rfl, ?_, ?_, rfl⟩) <;> revert hs <;> unfold selectIv <;> split <;> simp_all
    | some iv => exact .inr (.inr ⟨iv, rfl, rfl, rfl⟩)

/-- What CBC_DEC can answer (R205). -/
theorem cbcDecrypt_cases (ops : Operands) (c : CoreState) (p : Params) :
    (∃ e, cbcDecrypt ops c p = .error e) ∨
    (ops.keyValid = true ∧ ops.inLen.toNat ≤ p.inBufBytes ∧
      legalCiphertextLen ops.inLen.toNat = true ∧
      ∃ m, decryptChained ops.inBytes ops.sched ops.rounds = .plain m ∧
        cbcDecrypt ops c p = .ok (c.deliver m)) := by
  unfold cbcDecrypt
  split
  · exact .inl ⟨_, rfl⟩
  · rename_i hk
    split
    · exact .inl ⟨_, rfl⟩
    · split
      · exact .inl ⟨_, rfl⟩
      · rename_i hl
        split
        · exact .inl ⟨_, rfl⟩
        · exact .inl ⟨_, rfl⟩
        · rename_i m hm
          exact .inr ⟨by simpa using hk, by omega, by simpa using hl, m, hm, rfl⟩

@[simp] theorem laneBytes_length (w : Word) (n : Nat) : (laneBytes w n).length = n := by
  simp [laneBytes]

@[simp] theorem blockToBytes_length (q : Quad) : (blockToBytes q).length = 16 := by
  simp [blockToBytes]

@[simp] theorem encryptBlock_length (x : List Byte) (sched : List Word) (r : Nat) :
    (encryptBlock x sched r).length = 16 := by
  simp [encryptBlock]

@[simp] theorem decryptBlock_length (y : List Byte) (sched : List Word) (r : Nat) :
    (decryptBlock y sched r).length = 16 := by
  simp [decryptBlock]

@[simp] theorem entropyBytes_length (d : EntropyWord) : (entropyBytes d).length = 16 := by
  simp [entropyBytes]

@[simp] theorem xorBytes_length (x y : List Byte) :
    (xorBytes x y).length = min x.length y.length := by
  simp [xorBytes]

/-- A selected IV has 16 bytes (R203). -/
theorem selectIv_length {ops : Operands} {offer : Option EntropyWord} {iv : List Byte}
    (h : selectIv ops offer = some iv) : iv.length = 16 := by
  unfold selectIv at h
  split at h
  · simp only [Option.some.injEq] at h
    simp [← h]
  · obtain ⟨d, _, hd⟩ := Option.map_eq_some_iff.mp h
    simp [← hd]

@[simp] theorem padBytes_length (m : List Byte) :
    (padBytes m).length = 16 * (m.length / 16) + 16 := by
  simp only [padBytes, List.length_append, List.length_replicate, padLen]
  omega

@[simp] theorem encChain_length (sched : List Word) (r n : Nat) (text prev : List Byte) :
    (encChain sched r n text prev).length = 16 * n := by
  induction n generalizing text prev with
  | zero => rfl
  | succ n ih => simp only [encChain, List.length_append, encryptBlock_length, ih]; omega

/-- With a 16-byte chaining block, n chunks decrypt to n chunks (R202). -/
theorem decChain_length (sched : List Word) (r n : Nat) {text prev : List Byte}
    (hprev : prev.length = 16) (htext : 16 * n ≤ text.length) :
    (decChain sched r n text prev).length = 16 * n := by
  induction n generalizing text prev with
  | zero => rfl
  | succ n ih =>
    have hck : (text.take 16).length = 16 := by rw [List.length_take]; omega
    have hrest : 16 * n ≤ (text.drop 16).length := by rw [List.length_drop]; omega
    simp only [decChain, List.length_append, xorBytes_length, decryptBlock_length, hprev,
      ih hck hrest]
    omega

/-- Unpadding only removes bytes at the end (R181). -/
theorem unpadBytes_eq_take {m out : List Byte} (h : unpadBytes m = some out) :
    ∃ n, out = m.take n := by
  unfold unpadBytes at h
  split at h
  · cases h
  · split at h
    · cases h
    · split at h
      · cases h
      · split at h
        · exact ⟨_, (Option.some.inj h).symm⟩
        · cases h

@[simp] theorem scheduleFrom_length (n : Nat) (x : Word) : (scheduleFrom n x).length = n := by
  induction n generalizing x with
  | zero => rfl
  | succ n ih => simp [scheduleFrom, ih]

@[simp] theorem mixStep_s_length (m : Mixer) : (mixStep m).s.length = m.s.length := by
  simp [mixStep]

@[simp] theorem mixStep_l_length (m : Mixer) : (mixStep m).l.length = m.l.length := by
  simp [mixStep]

@[simp] theorem mixLoop_s_length (n : Nat) (m : Mixer) : (mixLoop n m).s.length = m.s.length := by
  induction n generalizing m with
  | zero => rfl
  | succ n ih => rw [mixLoop, ih, mixStep_s_length]

end Sys2Proof.Machine
end

