-- ==== Sys2Proof/Laws/PerInstr.lean ====
section
/-! SUPPORT. Facts made command by command: each command is well formed, its word is a legal command
word, and that word has the bits of its row in spec/opcode_table.json (30_encoding.md R91). -/

namespace Sys2Proof

/-- The word of each row of the opcode table. -/
def Laws.tableWord : Instr → Nat
  | .keyExpand => 0x00000001
  | .keyClear => 0x00000002
  | .blkEnc => 0x00000003
  | .blkDec => 0x00000004
  | .cbcEnc => 0x00000005
  | .cbcDec => 0x00000006
  | .pad => 0x00000007
  | .unpad => 0x00000008

/-- The command is well formed, and its word is the table's and has legal fields. -/
def Laws.TableRow.Statement (i : Instr) : Prop :=
  i.wf = true ∧ encode i = BitVec.ofNat 32 (Laws.tableWord i) ∧
    (commandFields (encode i)).wf = true

theorem Laws.TableRow.keyExpand : Laws.TableRow.Statement .keyExpand := by
  unfold Laws.TableRow.Statement; decide

theorem Laws.TableRow.keyClear : Laws.TableRow.Statement .keyClear := by
  unfold Laws.TableRow.Statement; decide

theorem Laws.TableRow.blkEnc : Laws.TableRow.Statement .blkEnc := by
  unfold Laws.TableRow.Statement; decide

theorem Laws.TableRow.blkDec : Laws.TableRow.Statement .blkDec := by
  unfold Laws.TableRow.Statement; decide

theorem Laws.TableRow.cbcEnc : Laws.TableRow.Statement .cbcEnc := by
  unfold Laws.TableRow.Statement; decide

theorem Laws.TableRow.cbcDec : Laws.TableRow.Statement .cbcDec := by
  unfold Laws.TableRow.Statement; decide

theorem Laws.TableRow.pad : Laws.TableRow.Statement .pad := by
  unfold Laws.TableRow.Statement; decide

theorem Laws.TableRow.unpad : Laws.TableRow.Statement .unpad := by
  unfold Laws.TableRow.Statement; decide

end Sys2Proof
end

