-- ==== Sys2Proof/Laws/Step.lean ====
section
/-! SUPPORT. What a command and a step can answer, said once. -/

namespace Sys2Proof.Machine

/-- No command stops, under any parameters: each answers a next state in every state. -/
theorem execWith_answers_next (p : Params) (i : Instr) (s : State) :
    ∃ t, execWith p i s = .next t := by
  have hfinish : ∀ (s : State) b r, ∃ t, s.finish b r = .next t := fun s b r => by
    rcases s.finish_cases b r with ⟨_, _, h⟩ | ⟨_, _, h⟩ <;> exact ⟨_, h⟩
  cases i with
  | cbcEnc =>
    rcases completeCbcEnc_cases p s with ⟨_, _, h⟩ | ⟨_, _, _, h⟩ | ⟨_, _, _, h⟩ <;> exact ⟨_, h⟩
  | keyExpand => exact hfinish s false (keyExpand (s.core.operands p) s.core p)
  | keyClear => exact hfinish s false (.ok (keyClear s.core p))
  | blkEnc => exact hfinish s false (blkEnc (s.core.operands p) s.core)
  | blkDec => exact hfinish s false (blkDec (s.core.operands p) s.core)
  | cbcDec => exact hfinish s true (cbcDecrypt (s.core.operands p) s.core p)
  | pad => exact hfinish s true (padMessage (s.core.operands p) s.core p)
  | unpad => exact hfinish s true (unpadMessage (s.core.operands p) s.core p)

/-- No command stops: each answers a next state in every state. -/
theorem exec_answers_next (i : Instr) (s : State) : ∃ t, exec i s = .next t := by
  rw [← execWith_default]
  exact execWith_answers_next Config.params i s

/-- Everything the core's turn can do. -/
theorem coreTurn_cases (run : Instr → State → Host.Outcome State Fault Refusal) (s : State) :
    (s.pendingWord = none ∧ coreTurn run s = .next s) ∨
    (∃ w i, s.pendingWord = some w ∧ decode w = .ok i ∧ coreTurn run s = run i s) ∨
    (∃ w e, s.pendingWord = some w ∧ decode w = .error e ∧
      coreTurn run s = .next { s with core := s.core.fail false .illegalCommand }) := by
  unfold coreTurn
  cases hw : s.pendingWord with
  | none => exact .inl ⟨rfl, rfl⟩
  | some w =>
    cases hd : decode w with
    | ok i => exact .inr (.inl ⟨w, i, rfl, hd, by simp only [hd]⟩)
    | error e => exact .inr (.inr ⟨w, e, rfl, hd, by simp only [hd]; rfl⟩)

/-- A pending word is that of PENDING, out of reset. -/
theorem pendingWord_eq_some {s : State} {w : Word} (h : s.pendingWord = some w) :
    s.rstN = true ∧ ∃ p, s.core.pending = some p ∧ p.word = w := by
  unfold State.pendingWord at h
  split at h
  · obtain ⟨p, hp, hw⟩ := Option.map_eq_some_iff.mp h
    exact ⟨by assumption, p, hp, hw⟩
  · cases h

end Sys2Proof.Machine
end

