-- ==== Sys2Proof/Machine/Script.lean ====
section
/-!
DEFINITION. Host scripts (30_encoding.md R95, R96): notation for lists of bus transactions. They are
"not part of the hardware" (R97); here they are lists of `Input`s to put into `State.inputs`.
`expect` is an assertion of the reader, not a transaction, and has no entry.
-/

namespace Sys2Proof.Machine

/-- The offsets of the registers that scripts name (R23). -/
def scriptOffset : Reg → Offset
  | .id => 0x0000#14
  | .ctrl => 0x0004#14
  | .cmd => 0x0008#14
  | .status => 0x000C#14
  | .irqEn => 0x0010#14
  | .inLen => 0x0014#14
  | .outLen => 0x0018#14
  | .active => 0x001C#14
  | .key i => 0x0020#14 + BitVec.ofNat 14 (4 * i.val)
  | .blk i => 0x0040#14 + BitVec.ofNat 14 (4 * i.val)
  | .iv i => 0x0050#14 + BitVec.ofNat 14 (4 * i.val)

/-- `wr32 REG, V` (R95). -/
def scriptWriteReg (r : Reg) (v : Word) : Input := .bus (.write (scriptOffset r) .b4 v)

/-- `rd32 REG` (R95). -/
def scriptReadReg (r : Reg) : Input := .bus (.read (scriptOffset r) .b4)

/-- `cmd MNEMONIC` (R96). -/
def scriptCmd (i : Instr) : List Input := [scriptWriteReg .cmd (encode i)]

/-- `wait` (R96): polls of STATUS while the command runs, then, the core having completed, the poll
that reads BUSY = 0. -/
def scriptWait (polls : Nat) : List Input :=
  List.replicate polls (scriptReadReg .status) ++ [.core, scriptReadReg .status]

/-- `ack`: clear DONE and LOCKERR (R96). -/
def scriptAck : List Input := [scriptWriteReg .status 0x0000000A#32]

/-- `setctrl r, klen, ivmode` (R96). -/
def scriptSetCtrl (r klen ivmode : Nat) : List Input :=
  [scriptWriteReg .ctrl (BitVec.ofNat 32 (r + klen * 2 ^ 8 + ivmode * 2 ^ 16))]

/-- 32-bit writes of consecutive words of the given bytes from an offset on, missing bytes 0. -/
def scriptWords : Nat → Offset → List Byte → List Input
  | 0, _, _ => []
  | n + 1, a, bs => .bus (.write a .b4 (leValue (bs.take 4))) :: scriptWords n (a + 4#14) (bs.drop 4)

/-- `setkey b0 .. b(n-1)` (R96). -/
def scriptSetKey (key : List Byte) : List Input :=
  scriptWords ((key.length + 3) / 4) 0x0020#14 key

/-- `load16 REGBASE, b0..b15` for BLK0 and IV0 (R96). -/
def scriptLoad16 (base : Offset) (bs : List Byte) : List Input :=
  scriptWords 4 base bs

/-- One-byte writes of consecutive bytes. -/
def scriptBytes : Offset → List Byte → List Input
  | _, [] => []
  | a, b :: bs => .bus (.write a .b1 (b.setWidth 32)) :: scriptBytes (a + 1#14) bs

/-- `loadbuf b0 .. b(n-1)` (R96): whole words, the last 1 to 3 bytes singly, then IN_LEN. -/
def scriptLoadBuf (bs : List Byte) : List Input :=
  scriptWords (bs.length / 4) 0x1000#14 bs
    ++ scriptBytes (0x1000#14 + BitVec.ofNat 14 (4 * (bs.length / 4))) (bs.drop (4 * (bs.length / 4)))
    ++ [scriptWriteReg .inLen (BitVec.ofNat 32 bs.length)]

/-- `run MNEMONIC`: `cmd`, then `wait` (R96). -/
def scriptRun (i : Instr) (polls : Nat) : List Input :=
  scriptCmd i ++ scriptWait polls

end Sys2Proof.Machine
end

