-- ==== Sys2Proof/Tests/Slice0.lean ====
section
/-! SUPPORT. Tests of the model against values that stand in spec/ (each comment names the rule or the
table of 95_test_vectors.md), and for every obligation with hypotheses a named witness that meets
them. -/

namespace Sys2Proof.Tests

open Sys2Proof.Machine

/-! ### Small states -/

/-- The reset state with another core. -/
def ofCore (c : CoreState) : State := { State.reset with core := c }

/-- The core right after reset, InBuf reading 0. -/
def fresh : CoreState := CoreState.reset []

/-- A core with the schedule of the zero 16-byte key for one round active. -/
def keyed : CoreState :=
  { fresh with
    status := { fresh.status with keyValid := true }
    active := { schedR := 1#8, schedKLen := 16#6 }
    sched := expand (List.replicate 16 0#8) 1 ++ List.replicate 508 0#32 }

/-- A core with these bytes at the start of InBuf, and IN_LEN their number. -/
def loaded (c : CoreState) (bs : List Byte) : CoreState :=
  { c with inBuf := Memory.write [] 0 bs, inLen := BitVec.ofNat 32 bs.length }

/-- A core with this IN_LEN. -/
def lengthSet (c : CoreState) (n : Nat) : CoreState := { c with inLen := BitVec.ofNat 32 n }

/-- A core with these CTRL fields. -/
def controlled (c : CoreState) (rounds keyLen : Nat) (ivMode : Bool) : CoreState :=
  { c with ctrl := { rounds := BitVec.ofNat 8 rounds, keyLen := BitVec.ofNat 6 keyLen, ivMode := ivMode } }

/-- The state in which this core has accepted this command and the host is silent. -/
def running (c : CoreState) (i : Instr) : State := ofCore (c.accept (encode i))

/-- The core of a next state. -/
def coreAfter : Host.Outcome State Fault Refusal → Option CoreState
  | .next t => some t.core
  | _ => none

/-- STATUS as the host reads it after one step. -/
def statusAfter (s : State) : Option Word :=
  (coreAfter (step s)).map fun c => c.status.toWord

/-- OUT_LEN after one step. -/
def outLenAfter (s : State) : Option Nat :=
  (coreAfter (step s)).map fun c => c.outLen.toNat

/-- The key bytes `01 02 .. 20` of 95_test_vectors.md L1.1. -/
def countingKey : List Byte := (List.range' 1 32).map (BitVec.ofNat 8)

/-- The IV bytes `00 01 .. 0f` of 95_test_vectors.md L1.1. -/
def countingIv : List Byte := (List.range 16).map (BitVec.ofNat 8)

/-- "Hello, world!" (95_test_vectors.md L1.1). -/
def hello : List Byte :=
  [0x48#8, 0x65#8, 0x6c#8, 0x6c#8, 0x6f#8, 0x2c#8, 0x20#8, 0x77#8, 0x6f#8, 0x72#8, 0x6c#8, 0x64#8,
    0x21#8]

/-- CBC_ENC's output for `hello` under `countingKey`, r = 20, `countingIv` (95_test_vectors.md L2.6). -/
def helloCiphertext : List Byte :=
  countingIv ++ [0xa8#8, 0x02#8, 0x92#8, 0x85#8, 0x0c#8, 0xe2#8, 0xa8#8, 0xbf#8, 0x3d#8, 0x2d#8,
    0x10#8, 0x83#8, 0xb0#8, 0x28#8, 0xb1#8, 0x10#8]

/-! ### Well-formedness: each check refuses an ill-formed term -/

-- R90: RSV must be 0.
theorem test_rsvZero_refuses : ({ op := 1#4, rsv := 1#28 } : CommandFields).rsvZero = false := by
  decide
-- R92: OP 0x0 and 0x9..0xF are reserved.
theorem test_opAssigned_refuses_zero : ({ op := 0#4, rsv := 0#28 } : CommandFields).opAssigned = false := by
  decide
theorem test_opAssigned_refuses_nine : ({ op := 9#4, rsv := 0#28 } : CommandFields).opAssigned = false := by
  decide
theorem test_fields_wf : ({ op := 8#4, rsv := 0#28 } : CommandFields).wf = true ∧
    ({ op := 15#4, rsv := 0#28 } : CommandFields).wf = false ∧
    ({ op := 8#4, rsv := 4#28 } : CommandFields).wf = false := by
  decide
-- R61: the data of Write(a, n, v) has n bytes.
theorem test_txn_wf_refuses : (Txn.write 0x1000#14 .b1 0x100#32).wf = false ∧
    (Txn.write 0x1000#14 .b2 0x10000#32).wf = false ∧ (Txn.write 0x1000#14 .b2 0xFFFF#32).wf = true := by
  decide

-- R9's own values fit the map; ROUNDS has 8 bits (R25); UNPAD needs an output buffer as large (R184).
theorem test_params_wf : Config.params.wf = true ∧ ({ rMax := 256 } : Params).wf = false ∧
    ({ inBufBytes := 4096, outBufBytes := 2048 } : Params).wf = false ∧
    ({ inBufBytes := 4098 } : Params).wf = false := by
  decide

/-! ### Decoding: the words of R91, written out bit by bit (RSV in bits 31..4, OP in bits 3..0) -/

theorem test_decode_keyExpand : decode 0b00000000000000000000000000000001#32 = .ok .keyExpand := by decide
theorem test_decode_keyClear : decode 0b00000000000000000000000000000010#32 = .ok .keyClear := by decide
theorem test_decode_blkEnc : decode 0b00000000000000000000000000000011#32 = .ok .blkEnc := by decide
theorem test_decode_blkDec : decode 0b00000000000000000000000000000100#32 = .ok .blkDec := by decide
theorem test_decode_cbcEnc : decode 0b00000000000000000000000000000101#32 = .ok .cbcEnc := by decide
theorem test_decode_cbcDec : decode 0b00000000000000000000000000000110#32 = .ok .cbcDec := by decide
theorem test_decode_pad : decode 0b00000000000000000000000000000111#32 = .ok .pad := by decide
theorem test_decode_unpad : decode 0b00000000000000000000000000001000#32 = .ok .unpad := by decide
-- 95_test_vectors.md L2.7: 0x00000011 has RSV != 0; 0x0000000F has a reserved OP; both illegal (R92).
theorem test_decode_illegal : decode 0x00000011#32 = .error .rsvNotZero ∧
    decode 0x0000000F#32 = .error .opReserved ∧ decode 0x80000001#32 = .error .rsvNotZero := by
  decide
-- R63, R90: the lane of the lowest address holds OP; three bytes are no command word.
theorem test_decodeBytes : decodeBytes [6#8, 0#8, 0#8, 0#8, 7#8] = .ok (.cbcDec, [7#8]) ∧
    decodeBytes [0#8, 0#8, 0#8, 6#8] = .error .rsvNotZero ∧
    decodeBytes [6#8, 0#8, 0#8] = .error .tooShort ∧
    decodeTableWord 32 0x00000008 = some .unpad ∧ decodeTableWord 32 0 = none := by
  decide

/-! ### Arithmetic -/

-- R126, the six values of F.
theorem test_mixF : mixF 0#32 = 0#32 ∧ mixF 1#32 = 0x60#32 ∧ mixF 0xFFFFFFFF#32 = 0x20#32 ∧
    mixF 0x80000000#32 = 0x10#32 ∧ mixF 0x7FFFFFFF#32 = 0x30#32 ∧
    mixF 0x12345678#32 = 0xC3C0DF09#32 := by
  decide
-- R12, R125: rotation by 0 and by 32 leaves the word.
theorem test_rotations : rotl 0x80000001#32 1 = 3#32 ∧ rotr 0x80000001#32 1 = 0xC0000000#32 ∧
    rotl 0x12345678#32 32 = 0x12345678#32 ∧ rotr 0x12345678#32 0 = 0x12345678#32 := by
  decide

/-! ### The commands -/

-- 95_test_vectors.md L3.1 and L2.3: zero 16-byte key, r = 20: STATUS 0x102, ACTIVE 0x1014, and S[43].
theorem test_keyExpand_zero_key : statusAfter (running fresh .keyExpand) = some 0x00000102#32 ∧
    (coreAfter (step (running fresh .keyExpand))).map (fun c => c.active.toWord) = some 0x00001014#32 ∧
    (coreAfter (step (running fresh .keyExpand))).map (fun c => c.sched.getD 43 0#32) =
      some 0x4B38AC83#32 := by
  decide +kernel
-- R221, R224, R229: a bad key length (code 1) comes before ROUNDS = 0 (code 4).
theorem test_keyExpand_errors :
    statusAfter (running (controlled fresh 0 17 false) .keyExpand) = some 0x00000016#32 ∧
    statusAfter (running (controlled fresh 0 24 false) .keyExpand) = some 0x00000046#32 := by
  decide +kernel
-- R146: KEY_VALID and KEY go; STATUS is DONE alone.
theorem test_keyClear : statusAfter (running keyed .keyClear) = some 0x00000002#32 ∧
    (coreAfter (step (running { keyed with key := Vector.replicate 8 7#32 } .keyClear))).map
      (fun c => c.key) = some (Vector.replicate 8 0#32) := by
  decide +kernel
-- 95_test_vectors.md L2.4, the one-round corner.
theorem test_blkEnc_one_round : (coreAfter (step (running keyed .blkEnc))).map (fun c => c.blk) =
    some { w0 := 0x6D05A9A6#32, w1 := 0xD7CCB041#32, w2 := 0x7689E859#32, w3 := 0x88F3F48E#32 } := by
  decide +kernel
-- 95_test_vectors.md L2.4: BLK_ENC with KEY_VALID = 0.
theorem test_blkEnc_no_key : statusAfter (running fresh .blkEnc) = some 0x00000056#32 := by
  decide +kernel
-- 95_test_vectors.md L2.4: decrypting the one-round corner gives the zero block.
theorem test_blkDec_one_round : (coreAfter (step (running { keyed with
      blk := { w0 := 0x6D05A9A6#32, w1 := 0xD7CCB041#32, w2 := 0x7689E859#32, w3 := 0x88F3F48E#32 } }
      .blkDec))).map (fun c => c.blk) = some Quad.zero := by
  decide +kernel
-- 95_test_vectors.md L2.4: BLK_DEC with KEY_VALID = 0.
theorem test_blkDec_no_key : statusAfter (running fresh .blkDec) = some 0x00000056#32 := by
  decide +kernel
-- 95_test_vectors.md L2.6, first row (the example of L1.1).
theorem test_encryptChained_hello :
    encryptChained hello (expand countingKey 20) 20 countingIv = helloCiphertext := by
  decide +kernel
-- 95_test_vectors.md L2.6: IN_LEN = 4080 is refused, and NO_KEY.
theorem test_cbcEnc_errors :
    statusAfter (running (lengthSet keyed 4080) .cbcEnc) = some 0x00000166#32 ∧
    statusAfter (running fresh .cbcEnc) = some 0x00000056#32 := by
  decide +kernel
-- 95_test_vectors.md L2.6: the tampered IV byte 15, bit 1, passes unpad with 15 bytes.
theorem test_decryptChained_tampered :
    decryptChained (helloCiphertext.set 15 0x0d#8) (expand countingKey 20) 20 =
      .plain (hello ++ [3#8, 3#8]) := by
  decide +kernel
-- 95_test_vectors.md L2.6: NO_KEY first; IN_LEN = 4097.
theorem test_cbcDec_errors : statusAfter (running (lengthSet fresh 31) .cbcDec) = some 0x00000056#32 ∧
    statusAfter (running (lengthSet keyed 4097) .cbcDec) = some 0x00000166#32 ∧
    statusAfter (running (lengthSet keyed 31) .cbcDec) = some 0x00000126#32 := by
  decide +kernel
-- R183's example: "Hello, world!" gives OUT_LEN 16 and three bytes 03.
theorem test_pad_hello : (coreAfter (step (running (loaded fresh hello) .pad))).map CoreState.output =
    some (hello ++ [3#8, 3#8, 3#8]) := by
  decide +kernel
-- 95_test_vectors.md L2.5's table: 4079 bytes pad to 4080; and an empty message to 16 (R183).
theorem test_pad_lengths : outLenAfter (running (lengthSet fresh 0) .pad) = some 16 ∧
    outLenAfter (running (lengthSet fresh 4079) .pad) = some 4080 := by
  decide +kernel
-- 95_test_vectors.md L2.5: UNPAD of 02 02 is the empty success.
theorem test_unpad_empty : outLenAfter (running (loaded fresh [2#8, 2#8]) .unpad) = some 0 ∧
    statusAfter (running (loaded fresh [2#8, 2#8]) .unpad) = some 0x00000002#32 := by
  decide +kernel
-- 95_test_vectors.md L2.5: UNPAD with IN_LEN = 0, and with IN_LEN = 4097.
theorem test_unpad_errors : statusAfter (running fresh .unpad) = some 0x00000036#32 ∧
    statusAfter (running (lengthSet fresh 4097) .unpad) = some 0x00000066#32 := by
  decide +kernel
-- 95_test_vectors.md L2.7: CMD 0x00000000 completes with ILLEGAL_COMMAND.
theorem test_illegal_command : statusAfter (ofCore (fresh.accept 0#32)) = some 0x00000076#32 := by
  decide +kernel

/-! ### The bus (95_test_vectors.md L2.7) -/

theorem test_bus_halfword_order : (memWrite 0x1002#14 .b2 0x4241#32 fresh).1.kind = .okay ∧
    (memWrite 0x1002#14 .b2 0x4241#32 fresh).2.inBuf = [(2, 0x41#8), (3, 0x42#8)] := by
  decide +kernel
theorem test_bus_refusals : memWrite 0x1002#14 .b4 1#32 fresh = (errorResponse, fresh) ∧
    memWrite 0x0004#14 .b2 0x1014#32 fresh = (errorResponse, fresh) ∧
    memRead 0x0060#14 .b4 fresh = (errorResponse, fresh) ∧
    memWrite 0x2000#14 .b1 0#32 fresh = (errorResponse, fresh) := by
  decide +kernel
theorem test_bus_ctrl_reads_back :
    (memRead 0x0004#14 .b4 (memWrite 0x0004#14 .b4 0xFFFFFFFF#32 fresh).2).1 =
      okayWith 0x00013FFF#32 := by
  decide +kernel
theorem test_bus_outBuf_masked :
    (memRead 0x200C#14 .b4 { fresh with outLen := 13#32, outBuf := [(12, 0x21#8), (13, 9#8)] }).1 =
      okayWith 0x00000021#32 := by
  decide +kernel
-- R42's W1C of STATUS, all ones written: DONE and LOCKERR only.
theorem test_bus_status_acknowledge :
    (memWrite 0x000C#14 .b4 0xFFFFFFFF#32 { fresh with status := { fresh.status with
      done := true, err := true, lockErr := true, errCode := 5#4, keyValid := true } }).2.status.toWord =
      0x00000154#32 := by
  decide +kernel
-- R96: what the script words `cmd PAD` and `ack` issue.
theorem test_script : scriptCmd .pad = [.bus (.write 0x0008#14 .b4 7#32)] ∧
    scriptAck = [.bus (.write 0x000C#14 .b4 0xA#32)] ∧
    scriptSetCtrl 20 16 0 = [.bus (.write 0x0004#14 .b4 0x00001014#32)] := by
  decide +kernel
-- R41 and the canonical form: reset lists nothing.
theorem test_reset_memory_wf : Memory.wf State.reset.core.inBuf Config.params.inBufBytes ∧
    Memory.wf State.reset.core.outBuf Config.params.outBufBytes := by
  decide

/-! ### Witnesses: states and operands that meet the hypotheses of each obligation -/

/-- An idle core about to see a CMD write of this word, and then the core's turn. -/
def aboutToRun (c : CoreState) (w : Word) : State :=
  { ofCore c with inputs := [.bus (.write 0x0008#14 .b4 w), .core] }

/-- A keyed core holding, as its input, the encryption of the empty message under its schedule. -/
def cipherLoaded : CoreState :=
  loaded keyed (encryptChained [] keyed.activeSchedule 1 (List.replicate 16 0#8))

theorem witness_TableWordsDecodeAlike : (0 : Nat) < 2 ^ 32 ∧ (8 : Nat) < 2 ^ 32 ∧
    2 ^ 32 - 1 < 2 ^ 32 := by
  decide

theorem witness_StepRunsPendingCommand :
    (running keyed .blkEnc).rstN = true ∧
    (running keyed .blkEnc).core.pending = some { word := 3#32, ops := keyed.capture } ∧
    decode 3#32 = .ok .blkEnc ∧ (running keyed .blkEnc).inputs = [] ∧
    ({ running keyed .blkEnc with inputs := [.core, .resetHigh] } : State).inputs =
      .core :: [.resetHigh] := by
  decide +kernel

theorem witness_FetchedWordRuns : (1 : Nat) < 2 ^ 32 ∧ decode (BitVec.ofNat 32 1) = .ok .keyExpand ∧
    (8 : Nat) < 2 ^ 32 ∧ decode (BitVec.ofNat 32 8) = .ok .unpad := by
  decide

theorem witness_BusAndEntropyMoves : (aboutToRun keyed 3#32).rstN = true ∧
    (aboutToRun keyed 3#32).inputs = .bus (.write 0x0008#14 .b4 3#32) :: [.core] ∧
    ({ running keyed .cbcEnc with inputs := [.entropy (some 7#128), .core] } : State).inputs =
      .entropy (some 7#128) :: [.core] := by
  decide +kernel

theorem witness_AcceptedCommandCompletesNext : (aboutToRun keyed 3#32).rstN = true ∧
    (aboutToRun keyed 3#32).core.status.busy = false ∧
    (aboutToRun keyed 3#32).inputs = .bus (.write 0x0008#14 .b4 (encode .blkEnc)) :: .core :: [] := by
  decide +kernel

theorem witness_CmdWriteWhileIdleAccepted : keyed.status.busy = false := by decide +kernel

theorem witness_CmdWriteWhileBusyDiscarded : (keyed.accept 3#32).status.busy = true := by
  decide +kernel

theorem witness_IllegalWordCompletes :
    (ofCore (fresh.accept 0#32)).rstN = true ∧ (ofCore (fresh.accept 0#32)).nextMove = .core ∧
    ({ ofCore (fresh.accept 0#32) with inputs := [.core] } : State).nextMove = .core ∧
    (fresh.accept 0#32).pending = some { word := 0#32, ops := fresh.capture } ∧
    (0#32).extractLsb' 0 4 = 0#4 ∧
    (fresh.accept 0x11#32).pending = some { word := 0x11#32, ops := fresh.capture } ∧
    (0x11#32).extractLsb' 4 28 ≠ 0#28 ∧
    (fresh.accept 9#32).pending = some { word := 9#32, ops := fresh.capture } ∧
    9 ≤ ((9#32).extractLsb' 0 4).toNat := by
  decide +kernel

theorem witness_IdleCoreTurnChangesNothing : (ofCore keyed).core.pending = none ∧
    (ofCore keyed).inputs = [] ∧
    ({ ofCore keyed with inputs := [.core] } : State).inputs = .core :: [] := by
  decide +kernel

theorem witness_CompletionEndsCommand :
    ((running keyed .blkEnc).rstN = true ∧
      (running keyed .blkEnc).core.pending = some { word := 3#32, ops := keyed.capture } ∧
      (running keyed .blkEnc).nextMove = .core ∧ (running keyed .blkEnc).core.entReady = false) ∧
    ({ running keyed .cbcEnc with entropy := some 7#128 } : State).rstN = true ∧
    ({ running keyed .cbcEnc with entropy := some 7#128 } : State).core.pending =
      some { word := 5#32, ops := keyed.capture } ∧
    ({ running keyed .cbcEnc with entropy := some 7#128 } : State).nextMove = .core ∧
    ({ running keyed .cbcEnc with entropy := some 7#128 } : State).core.entReady = true ∧
    ({ running keyed .cbcEnc with entropy := some 7#128 } : State).entropy ≠ none := by
  decide +kernel

theorem witness_KeyExpandOutcomes :
    ((running (controlled fresh 1 16 false) .keyExpand).core.operands.ctrl.keyLen = 16#6 ∧
      (running (controlled fresh 1 16 false) .keyExpand).core.operands.ctrl.rounds ≠ 0#8) ∧
    ((running (controlled fresh 255 24 false) .keyExpand).core.operands.ctrl.keyLen = 24#6 ∧
      (running (controlled fresh 255 24 false) .keyExpand).core.operands.ctrl.rounds ≠ 0#8) ∧
    ((running (controlled fresh 20 32 false) .keyExpand).core.operands.ctrl.keyLen = 32#6 ∧
      (running (controlled fresh 20 32 false) .keyExpand).core.operands.ctrl.rounds ≠ 0#8) ∧
    ((running (controlled fresh 0 17 false) .keyExpand).core.operands.ctrl.keyLen ≠ 16#6 ∧
      (running (controlled fresh 0 17 false) .keyExpand).core.operands.ctrl.keyLen ≠ 24#6 ∧
      (running (controlled fresh 0 17 false) .keyExpand).core.operands.ctrl.keyLen ≠ 32#6) ∧
    ((running (controlled fresh 0 16 false) .keyExpand).core.operands.ctrl.keyLen = 16#6 ∧
      (running (controlled fresh 0 16 false) .keyExpand).core.operands.ctrl.rounds = 0#8) := by
  decide +kernel

theorem witness_KeyPackingIsLittleEndian :
    (List.replicate 16 1#8).length = 16 ∧ (List.replicate 24 1#8).length = 24 ∧
    countingKey.length = 32 ∧ (0 < 16 / 4 ∧ 3 < 16 / 4 ∧ 5 < 24 / 4 ∧ 7 < 32 / 4) ∧
    (running fresh .keyExpand).core.operands.ctrl.keyLen = 16#6 ∧
    (running (controlled fresh 1 24 false) .keyExpand).core.operands.ctrl.keyLen = 24#6 ∧
    (running (controlled fresh 1 32 false) .keyExpand).core.operands.ctrl.keyLen = 32#6 := by
  decide +kernel

theorem witness_ScheduleInitialisation : 1 ≤ 1 ∧ 1 ≤ 2 * 20 + 3 ∧ 2 * 20 + 3 ≤ 2 * 20 + 3 := by decide

theorem witness_ExpandLengthAndCount : (16 = 16 ∨ 16 = 24 ∨ 16 = 32) ∧ 2 ≤ 2 ∧
    (24 = 16 ∨ 24 = 24 ∨ 24 = 32) ∧ (32 = 16 ∨ 32 = 24 ∨ 32 = 32) ∧ 2 ≤ 255 := by
  decide

theorem witness_OnlyKeyCommandsChangeSchedule :
    ∃ t, step (running keyed .keyClear) = .next t ∧ t.core.status.keyValid ≠ keyed.status.keyValid :=
  ⟨{ running keyed .keyClear with core := (keyClear (running keyed .keyClear).core).complete }, rfl,
    by decide +kernel⟩

theorem witness_CodecRoundTrip : countingIv.length = 16 := by decide

theorem witness_RotationLaws : 64 % 32 = 0 ∧ 0 % 32 = 0 ∧ (0 : Nat) < 32 ∧ (31 : Nat) < 32 := by decide

theorem witness_BlockXorOnWords : countingIv.length = 16 ∧ (List.replicate 16 255#8).length = 16 ∧
    (0 : Nat) < 16 ∧ (15 : Nat) < 16 := by
  decide

theorem witness_BlockTransformInverse : countingIv.length = 16 := by decide

theorem witness_BlkEncOutcomes : (running keyed .blkEnc).core.operands.keyValid = true ∧
    (running fresh .blkEnc).core.operands.keyValid = false := by
  decide +kernel

theorem witness_BlkDecOutcomes : (running keyed .blkDec).core.operands.keyValid = true ∧
    (running fresh .blkDec).core.operands.keyValid = false := by
  decide +kernel

theorem witness_BlkEncThenBlkDecRestores :
    ({ ofCore keyed with inputs := (aboutToRun keyed 3#32).inputs ++ (aboutToRun keyed 4#32).inputs } :
        State).rstN = true ∧
    keyed.status.busy = false ∧ keyed.status.keyValid = true ∧
    (aboutToRun keyed 3#32).inputs ++ (aboutToRun keyed 4#32).inputs =
      [.bus (.write 0x0008#14 .b4 3#32), .core, .bus (.write 0x0008#14 .b4 4#32), .core] ++ [] := by
  decide +kernel

theorem witness_UnpadAcceptsExactlyPadded :
    (1 ≤ 1 ∧ 1 ≤ 16 ∧ [0x41#8, 1#8] = [0x41#8] ++ List.replicate 1 (BitVec.ofNat 8 1)) ∧
    unpadBytes [0x41#8, 1#8] = some [0x41#8] ∧
    unpadBytes (List.replicate 16 16#8) = some [] := by
  decide

theorem witness_PadOutcomes :
    ((running fresh .pad).core.operands.inLen.toNat ≤ 4096 ∧
      16 * ((running fresh .pad).core.operands.inLen.toNat / 16) + 16 ≤ 4096) ∧
    ((running (lengthSet fresh 4095) .pad).core.operands.inLen.toNat ≤ 4096 ∧
      16 * ((running (lengthSet fresh 4095) .pad).core.operands.inLen.toNat / 16) + 16 ≤ 4096) ∧
    4096 < 16 * ((running (lengthSet fresh 4096) .pad).core.operands.inLen.toNat / 16) + 16 ∧
    4096 < (running (lengthSet fresh 4097) .pad).core.operands.inLen.toNat := by
  decide +kernel

theorem witness_UnpadOutcomes :
    ((running (loaded fresh [1#8]) .unpad).core.operands.inLen.toNat ≤ 4096 ∧
      unpadBytes (running (loaded fresh [1#8]) .unpad).core.operands.inBytes = some []) ∧
    4096 < (running (lengthSet fresh 4097) .unpad).core.operands.inLen.toNat ∧
    ((running fresh .unpad).core.operands.inLen.toNat ≤ 4096 ∧
      unpadBytes (running fresh .unpad).core.operands.inBytes = none) ∧
    ((running (lengthSet fresh 4096) .unpad).core.operands.inLen.toNat ≤ 4096 ∧
      unpadBytes (running (lengthSet fresh 4096) .unpad).core.operands.inBytes = none) := by
  decide +kernel

theorem witness_EncryptChainedShape : countingIv.length = 16 ∧ 0 < (padBytes hello).length / 16 := by
  decide

theorem witness_ChainedRoundTrip : countingIv.length = 16 := by decide

theorem witness_IvFlipReachesFirstPlaintextBlock : 16 * (0 + 1) ≤ countingIv.length ∧
    16 * (1 + 1) ≤ countingKey.length ∧ countingIv.length = 16 ∧
    (List.replicate 16 1#8).length = 16 := by
  decide

theorem witness_CbcEncWithFixedIv :
    (running (controlled (lengthSet keyed 4079) 20 16 true) .cbcEnc).core.operands.keyValid = true ∧
    (running (controlled (lengthSet keyed 4079) 20 16 true) .cbcEnc).core.operands.inLen.toNat ≤ 4096 ∧
    32 + 16 * ((running (controlled (lengthSet keyed 4079) 20 16 true)
      .cbcEnc).core.operands.inLen.toNat / 16) ≤ 4096 ∧
    (running (controlled (lengthSet keyed 4079) 20 16 true) .cbcEnc).core.operands.ctrl.ivMode = true := by
  decide +kernel

theorem witness_CbcEncWithDrawnIv :
    (running keyed .cbcEnc).core.operands.keyValid = true ∧
    (running keyed .cbcEnc).core.operands.inLen.toNat ≤ 4096 ∧
    32 + 16 * ((running keyed .cbcEnc).core.operands.inLen.toNat / 16) ≤ 4096 ∧
    (running keyed .cbcEnc).core.operands.ctrl.ivMode = false ∧
    ({ running keyed .cbcEnc with entropy := some 7#128 } : State).entropy = some 7#128 := by
  decide +kernel

theorem witness_CbcEncWaitsForEntropy :
    (running keyed .cbcEnc).core.operands.keyValid = true ∧
    (running keyed .cbcEnc).core.operands.inLen.toNat ≤ 4096 ∧
    32 + 16 * ((running keyed .cbcEnc).core.operands.inLen.toNat / 16) ≤ 4096 ∧
    (running keyed .cbcEnc).core.operands.ctrl.ivMode = false ∧
    (running keyed .cbcEnc).entropy = none ∧
    (running keyed .cbcEnc).core.pending = some { word := 5#32, ops := keyed.capture } ∧
    decode 5#32 = .ok .cbcEnc := by
  decide +kernel

theorem witness_CbcEncErrors : (running fresh .cbcEnc).core.operands.keyValid = false ∧
    (running (lengthSet keyed 4080) .cbcEnc).core.operands.keyValid = true ∧
    4096 < 32 + 16 * ((running (lengthSet keyed 4080) .cbcEnc).core.operands.inLen.toNat / 16) ∧
    (running (lengthSet keyed 4097) .cbcEnc).core.operands.keyValid = true ∧
    4096 < (running (lengthSet keyed 4097) .cbcEnc).core.operands.inLen.toNat := by
  decide +kernel

theorem witness_CbcDecOutcomes :
    ((running cipherLoaded .cbcDec).core.operands.keyValid = true ∧
      32 ≤ (running cipherLoaded .cbcDec).core.operands.inLen.toNat ∧
      (running cipherLoaded .cbcDec).core.operands.inLen.toNat ≤ 4096 ∧
      (running cipherLoaded .cbcDec).core.operands.inLen.toNat % 16 = 0 ∧
      decryptChained (running cipherLoaded .cbcDec).core.operands.inBytes
        (running cipherLoaded .cbcDec).core.operands.sched
        (running cipherLoaded .cbcDec).core.operands.active.schedR.toNat = .plain []) ∧
    (running fresh .cbcDec).core.operands.keyValid = false ∧
    4096 < (running (lengthSet keyed 4097) .cbcDec).core.operands.inLen.toNat ∧
    (running (lengthSet keyed 16) .cbcDec).core.operands.inLen.toNat < 32 ∧
    (running (lengthSet keyed 33) .cbcDec).core.operands.inLen.toNat % 16 ≠ 0 ∧
    ((running (lengthSet keyed 32) .cbcDec).core.operands.keyValid = true ∧
      (running (lengthSet keyed 32) .cbcDec).core.operands.inLen.toNat = 32 ∧
      decryptChained (running (lengthSet keyed 32) .cbcDec).core.operands.inBytes
        (running (lengthSet keyed 32) .cbcDec).core.operands.sched
        (running (lengthSet keyed 32) .cbcDec).core.operands.active.schedR.toNat = .badPadding) := by
  decide +kernel

/-- A running CBC_ENC of the empty message with a fixed IV. -/
def encrypting : State := running (controlled keyed 20 16 true) .cbcEnc

/-- Where it completes. -/
def encrypted : State :=
  { encrypting with core :=
      (cbcEncrypt encrypting.core.operands (blockToBytes encrypting.core.operands.iv)
        encrypting.core).complete }

/-- A running CBC_DEC of its output under the same schedule. -/
def decrypting : State := running (loaded keyed encrypted.core.output) .cbcDec

theorem witness_MachineChainedRoundTrip :
    (encrypting.core.operands.inBytes.length = encrypting.core.operands.inLen.toNat ∧
      encrypting.core.operands.keyValid = true ∧ encrypting.core.operands.inLen.toNat ≤ 4079 ∧
      encrypting.core.operands.ctrl.ivMode = true ∧ decrypting.core.operands.keyValid = true ∧
      decrypting.core.operands.sched = encrypting.core.operands.sched ∧
      decrypting.core.operands.active = encrypting.core.operands.active ∧
      decrypting.core.operands.inLen = encrypted.core.outLen ∧
      decrypting.core.operands.inBytes = encrypted.core.output) ∧
    exec .cbcEnc encrypting = .next encrypted :=
  ⟨by decide +kernel, rfl⟩

theorem witness_MisalignedAccessRefused : (0x1002#14).toNat % widthBytes .b4 ≠ 0 ∧
    (0x3FFF#14).toNat % widthBytes .b2 ≠ 0 := by
  decide

theorem witness_ReservedOffsetRefused :
    (0x0060 ≤ (0x0060#14).toNat ∧ (0x0060#14).toNat ≤ 0x0FFF) ∧
    (0x0060 ≤ (0x0FFF#14).toNat ∧ (0x0FFF#14).toNat ≤ 0x0FFF) ∧ 0x3000 ≤ (0x3000#14).toNat ∧
    0x3000 ≤ (0x3FFF#14).toNat := by
  decide

theorem witness_NarrowRegisterAccessRefused : (0x0000#14).toNat < 0x0060 ∧ Width.b1 ≠ .b4 ∧
    (0x005E#14).toNat < 0x0060 ∧ Width.b2 ≠ .b4 := by
  decide

theorem witness_ReadOnlyAndWriteOnlyTargets :
    (0x2000 ≤ (0x2000#14).toNat ∧ (0x2000#14).toNat < 0x3000 ∧ (0x2000#14).toNat % widthBytes .b4 = 0) ∧
    (0x2000 ≤ (0x2FFF#14).toNat ∧ (0x2FFF#14).toNat < 0x3000 ∧ (0x2FFF#14).toNat % widthBytes .b1 = 0) ∧
    keyed.status.busy = false ∧ (keyed.accept 3#32).status.busy = true ∧ (0 : Nat) < 8 ∧ (7 : Nat) < 8 := by
  decide +kernel

theorem witness_BusyAccessesLocked : (keyed.accept 3#32).status.busy = true ∧
    ((0x0004#14).toNat = 0x04 ∧ (0x0014#14).toNat = 0x14 ∧ (0x0018#14).toNat = 0x18 ∧
      (0x0010#14).toNat = 0x10 ∧ (0x001C#14).toNat = 0x1C ∧ 0x20 ≤ (0x0020#14).toNat ∧
      (0x005C#14).toNat < 0x60 ∧ (0x005C#14).toNat % widthBytes .b4 = 0 ∧
      (0x0014#14).toNat % widthBytes .b4 = 0) ∧
    (0x1000 ≤ (0x1000#14).toNat ∧ (0x1000#14).toNat % widthBytes .b4 = 0 ∧
      (0x2FFF#14).toNat < 0x3000 ∧ (0x2FFF#14).toNat % widthBytes .b1 = 0) := by
  decide +kernel

theorem witness_ReadsChangeOnlyLockErr : keyed.status.busy = false ∧
    (memRead 0x0000#14 .b4 keyed).1.kind = .okay := by
  decide +kernel

theorem witness_RegistersHoldWhatIsWritten : keyed.status.busy = false ∧
    (16 ≤ 16 ∧ 16 < 24) ∧ (16 ≤ 23 ∧ 23 < 24) := by
  decide +kernel

theorem witness_InBufWriteThenRead : keyed.status.busy = false ∧
    (0x1000 ≤ (0x1000#14).toNat ∧ (0x1000#14).toNat < 0x2000 ∧ (0x1000#14).toNat % widthBytes .b4 = 0) ∧
    (0x1000 ≤ (0x1FFE#14).toNat ∧ (0x1FFE#14).toNat < 0x2000 ∧ (0x1FFE#14).toNat % widthBytes .b2 = 0) ∧
    (0x1000 ≤ (0x1FFF#14).toNat ∧ (0x1FFF#14).toNat < 0x2000 ∧ (0x1FFF#14).toNat % widthBytes .b1 = 0) := by
  decide +kernel

theorem witness_OutBufReadsMasked : keyed.status.busy = false ∧
    (0x2000 ≤ (0x2000#14).toNat ∧ (0x2000#14).toNat < 0x3000 ∧ (0x2000#14).toNat % widthBytes .b4 = 0) ∧
    (0x2000 ≤ (0x2FFE#14).toNat ∧ (0x2FFE#14).toNat < 0x3000 ∧ (0x2FFE#14).toNat % widthBytes .b2 = 0) ∧
    (0x2000 ≤ (0x2FFF#14).toNat ∧ (0x2FFF#14).toNat < 0x3000 ∧ (0x2FFF#14).toNat % widthBytes .b1 = 0) := by
  decide +kernel

theorem witness_ReservedBitsIgnored : keyed.status.busy = false := by decide +kernel

theorem witness_KeyMaterialNeverRead :
    ({ keyed with key := Vector.replicate 8 7#32 } : CoreState) ≠ keyed ∧
    CoreState.withoutKey { keyed with key := Vector.replicate 8 7#32 } = keyed.withoutKey := by
  decide +kernel

theorem witness_InterruptOutput : (2#32).getLsbD 1 = true ∧ keyed.status.busy = false ∧
    (2#32).getLsbD 0 = false := by
  decide +kernel

theorem witness_ResetObservables : (2 ≤ 2 ∧ 2 < 24) ∧ (2 ≤ 23 ∧ 23 < 24) ∧ (0 : Nat) < 4096 ∧
    (4095 : Nat) < 4096 := by
  decide

theorem witness_ResetAbandonsCommand :
    ({ running keyed .blkEnc with inputs := [.resetLow [(3, 7#8)], .resetHigh] } : State).inputs =
      .resetLow [(3, 7#8)] :: .resetHigh :: [] := by
  decide +kernel

theorem witness_ResetDrawsAnyContents : Memory.wf [(0, 1#8), (4095, 255#8)] 4096 ∧
    ({ ofCore keyed with inputs := [.resetLow [(0, 1#8), (4095, 255#8)]] } : State).nextMove =
      .resetLow [(0, 1#8), (4095, 255#8)] := by
  decide +kernel

theorem witness_StepStopsOnlyInReset :
    step { ofCore fresh with rstN := false, inputs := [.bus (.read 0x0000#14 .b4)] } =
      .fault .busInReset := rfl

/-- Parameters other than R9's: ten rounds at most and half-size buffers. -/
def smaller : Params := { rMax := 10, inBufBytes := 2048, outBufBytes := 2048 }

theorem witness_ResetEstablishesInvariants : smaller.wf = true ∧ smaller ≠ Config.params := by
  refine ⟨by decide, fun h => ?_⟩
  exact absurd (congrArg Params.rMax h) (by decide)

/-- The running KEY_CLEAR of `keyed` meets the invariants under parameters that hold its schedule. -/
theorem running_keyClear_inv (p : Params) (hmax : 1 ≤ p.rMax) (hlen : keyed.sched.length = p.tMax)
    (hcap : keyed.capture = keyed.capture p) : (running keyed .keyClear).Inv p where
  sequenced := by unfold CoreState.Sequenced; decide +kernel
  coherent := fun q hq => by cases hq; exact hcap
  statusLegal := by unfold CoreState.StatusLegal; decide +kernel
  activeLegal := ⟨fun _ => ⟨by decide +kernel, hmax, .inl rfl⟩, fun h => nomatch h⟩
  scheduleValid := fun _ => ⟨List.replicate 16 0#8, by decide +kernel, by decide +kernel⟩
  memoriesWf := ⟨⟨.nil, fun _ h => nomatch h⟩, ⟨.nil, fun _ h => nomatch h⟩, hlen⟩
  outLenBounded := Nat.zero_le _
  resetHeld := fun h => nomatch h

theorem witness_StepKeepsInvariants :
    ((running keyed .keyClear).Inv ∧
      step (running keyed .keyClear) = .next { running keyed .keyClear with
        core := (keyClear (running keyed .keyClear).core).complete }) ∧
    ({ inBufBytes := 2048, outBufBytes := 2048 } : Params).wf = true ∧
    (running keyed .keyClear).Inv { inBufBytes := 2048, outBufBytes := 2048 } ∧
    stepWith { inBufBytes := 2048, outBufBytes := 2048 } (running keyed .keyClear) =
      .next { running keyed .keyClear with
        core := (keyClear (running keyed .keyClear).core).complete } :=
  ⟨⟨running_keyClear_inv _ (by decide) (by decide +kernel) rfl, rfl⟩, by decide,
    running_keyClear_inv _ (by decide) (by decide +kernel) (by decide +kernel), rfl⟩

theorem witness_ErrorsArePrecise : (running fresh .blkEnc).core.status.err = false ∧
    ∃ t, exec .blkEnc (running fresh .blkEnc) = .next t ∧ t.core.status.err = true :=
  ⟨by decide +kernel, (running fresh .blkEnc).failed false 5#4, rfl, rfl⟩

theorem witness_CommandsTouchOnlyTheirTargets :
    exec .keyClear (running keyed .keyClear) =
      .next { running keyed .keyClear with core := (keyClear (running keyed .keyClear).core).complete } :=
  rfl

end Sys2Proof.Tests
end

section
/-! PROOFS. Where a step stops: nowhere but at a bus transaction while `rst_n = 0` (O56). -/

namespace Sys2Proof.Machine

/-- The step is the parametric step at R9's values. -/
theorem stepWith_default (s : State) : stepWith Config.params s = step s := by
  have hexec : execWith Config.params = exec := funext₂ execWith_default
  unfold stepWith step
  rw [hexec]

/-- The core's turn stops only where a command does. -/
theorem coreTurn_answers_next {run : Instr → State → Host.Outcome State Fault Refusal}
    (hrun : ∀ i s, ∃ t, run i s = .next t) (s : State) : ∃ t, coreTurn run s = .next t := by
  rcases coreTurn_cases run s with ⟨_, h⟩ | ⟨_, i, _, _, h⟩ | ⟨_, _, _, _, h⟩
  · exact ⟨_, h⟩
  · rw [h]
    exact hrun i s
  · exact ⟨_, h⟩

/-- A bus transaction has a next state exactly out of reset (R250; log entry 7). -/
theorem State.applyBus_cases (s : State) (t : Txn) (p : Params) :
    (s.rstN = false ∧ s.applyBus t p = .fault .busInReset) ∨
    (s.rstN = true ∧ s.applyBus t p =
      .next { s with core := (transact t s.core p).2, resp := some (transact t s.core p).1 }) := by
  cases h : s.rstN with
  | false => exact .inl ⟨rfl, by simp [State.applyBus, h]⟩
  | true => exact .inr ⟨rfl, by simp [State.applyBus, h]⟩

/-- Everything a step can answer: the fault of a bus transaction in reset, or a next state. -/
theorem stepWith_cases (p : Params) (s : State) :
    ((s.rstN = false ∧ ∃ t, s.nextMove = .bus t) ∧ stepWith p s = .fault .busInReset) ∨
    (¬ (s.rstN = false ∧ ∃ t, s.nextMove = .bus t) ∧ ∃ t, stepWith p s = .next t) := by
  unfold stepWith
  cases hm : s.nextMove with
  | bus t =>
    rcases s.afterMove.applyBus_cases t p with ⟨hr, h⟩ | ⟨hr, h⟩ <;> rw [State.afterMove_rstN] at hr
    · exact .inl ⟨⟨hr, t, rfl⟩, h⟩
    · exact .inr ⟨by simp [hr], _, h⟩
  | core => exact .inr ⟨by simp, coreTurn_answers_next (execWith_answers_next p) s.afterMove⟩
  | entropy offer => exact .inr ⟨by simp, _, rfl⟩
  | resetLow draws => exact .inr ⟨by simp, _, rfl⟩
  | resetHigh => exact .inr ⟨by simp, _, rfl⟩

/-- A step answers a next state exactly if it is no bus transaction in reset. -/
theorem stepWith_next_iff (p : Params) (s : State) :
    (∃ t, stepWith p s = .next t) ↔ ¬ (s.rstN = false ∧ ∃ t, s.nextMove = .bus t) := by
  rcases stepWith_cases p s with ⟨hbus, h⟩ | ⟨hbus, h⟩
  · simp [h, hbus]
  · exact iff_of_true h hbus

/-- Settles O56, from what a step can answer (`stepWith_cases`). -/
theorem stepStopsOnlyInReset : Obligations.StepStopsOnlyInReset := by
  intro s
  refine ⟨?_, fun f _ => ?_, fun r hr => ?_, fun p => stepWith_next_iff p s, stepWith_default s⟩
  · unfold State.StepSafe
    rw [← stepWith_default]
    exact stepWith_next_iff _ s
  · cases f with
    | busInReset => rfl
  · rw [← stepWith_default] at hr
    rcases stepWith_cases Config.params s with ⟨_, h⟩ | ⟨_, t, h⟩ <;> rw [h] at hr <;> cases hr

end Sys2Proof.Machine
end

section
/-! PROOFS. The lengths of what the commands deliver and store (R143, R181, R201, R202), and how
`storeSchedule` lays out S (R35). -/

namespace Sys2Proof.Machine

/-- A schedule has `2r + 4` words (R143). -/
@[simp] theorem expand_length (key : List Byte) (r : Nat) : (expand key r).length = 2 * r + 4 := by
  simp [expand, initSchedule]

@[simp] theorem Operands.keyBytes_length (ops : Operands) :
    ops.keyBytes.length = ops.ctrl.keyLen.toNat := by
  simp [Operands.keyBytes]

/-- Storing a schedule that fits leaves the number of words of S as it was. -/
theorem storeSchedule_length {old new : List Word} (h : new.length ≤ old.length) :
    (storeSchedule old new).length = old.length := by
  simp only [storeSchedule, List.length_append, List.length_drop]
  omega

/-- The stored words stand at the start of S. -/
theorem storeSchedule_take {old new : List Word} {n : Nat} (h : new.length = n) :
    (storeSchedule old new).take n = new :=
  List.take_left' h

/-- Unpadding gives no more bytes than it got (R181). -/
theorem unpadBytes_length_le {m out : List Byte} (h : unpadBytes m = some out) :
    out.length ≤ m.length := by
  obtain ⟨n, rfl⟩ := unpadBytes_eq_take h
  exact List.length_take_le' n m

/-- A chained ciphertext is the IV and the blocks of the padded plaintext (R201). -/
theorem encryptChained_length (m : List Byte) (sched : List Word) (r : Nat) {iv : List Byte}
    (hiv : iv.length = 16) :
    (encryptChained m sched r iv).length = 32 + 16 * (m.length / 16) := by
  simp only [encryptChained, List.length_append, encChain_length, padBytes_length, hiv]
  omega

/-- Chained decryption recovers fewer bytes than the ciphertext has (R202). -/
theorem decryptChained_length_le {y : List Byte} {sched : List Word} {r : Nat} {m : List Byte}
    (h : decryptChained y sched r = .plain m) : m.length ≤ y.length := by
  unfold decryptChained at h
  split at h
  · cases h
  · rename_i hlegal
    have hmin : 32 ≤ y.length := by
      simp only [legalCiphertextLen, Bool.and_eq_true, decide_eq_true_eq, not_not] at hlegal
      exact hlegal.1
    split at h
    · cases h
    · rename_i out hout
      cases h
      have hiv : (y.take 16).length = 16 := by rw [List.length_take]; omega
      have hchain := decChain_length sched r ((y.drop 16).length / 16) (text := y.drop 16) hiv
        (Nat.mul_div_le _ _)
      have hunpad := unpadBytes_length_le hout
      rw [hchain, List.length_drop] at hunpad
      omega

/-- No more bytes of InBuf are captured than it holds (R111). -/
theorem CoreState.capture_inBytes_length (c : CoreState) (p : Params) :
    (c.capture p).inBytes.length = min c.inLen.toNat p.inBufBytes := by
  simp

end Sys2Proof.Machine
end

section
/-! PROOFS. `State.Inv` in three parts: the sequencer's (which a completion or a reset establishes
anew), the data's (which every operation has to keep), and the reset record in reset. What each
operation on the core's record does to the first two. -/

namespace Sys2Proof.Machine

/-- What the flags of an error show: a code of R220, and 0 without ERR. -/
def CoreState.ErrorLegal (c : CoreState) : Prop :=
  c.status.errCode.toNat ≤ 7 ∧ (c.status.err = false → c.status.errCode = 0#4)

/-- A running command shows neither DONE nor ERR (R110). -/
def CoreState.RunningClean (c : CoreState) : Prop :=
  c.status.busy = true → c.status.done = false ∧ c.status.err = false

/-- The sequencer's part of the invariant. -/
structure CoreState.SequencerInv (c : CoreState) (p : Params) : Prop where
  sequenced : c.Sequenced
  coherent : c.Coherent p
  runningClean : c.RunningClean

/-- The part of the invariant that says nothing of BUSY, DONE and PENDING. -/
structure CoreState.DataInv (c : CoreState) (p : Params) : Prop where
  errorLegal : c.ErrorLegal
  activeLegal : c.ActiveLegal p
  scheduleValid : c.ScheduleValid
  memoriesWf : c.MemoriesWf p
  outLenBounded : c.OutLenBounded p

theorem CoreState.statusLegal_iff (c : CoreState) :
    c.StatusLegal ↔ c.ErrorLegal ∧ c.RunningClean :=
  and_assoc.symm

/-- The invariant is its three parts. -/
theorem State.inv_iff {s : State} {p : Params} :
    s.Inv p ↔ s.core.SequencerInv p ∧ s.core.DataInv p ∧ s.ResetHeld p := by
  constructor
  · intro h
    obtain ⟨herror, hclean⟩ := s.core.statusLegal_iff.mp h.statusLegal
    exact ⟨⟨h.sequenced, h.coherent, hclean⟩,
      ⟨herror, h.activeLegal, h.scheduleValid, h.memoriesWf, h.outLenBounded⟩, h.resetHeld⟩
  · rintro ⟨hseq, hdata, hreset⟩
    exact
      { sequenced := hseq.sequenced
        coherent := hseq.coherent
        statusLegal := s.core.statusLegal_iff.mpr ⟨hdata.errorLegal, hseq.runningClean⟩
        activeLegal := hdata.activeLegal
        scheduleValid := hdata.scheduleValid
        memoriesWf := hdata.memoriesWf
        outLenBounded := hdata.outLenBounded
        resetHeld := hreset }

/-- Out of reset the invariant is the core's. -/
theorem State.inv_of_rstN {s : State} {p : Params} (hrst : s.rstN = true)
    (hseq : s.core.SequencerInv p) (hdata : s.core.DataInv p) : s.Inv p :=
  State.inv_iff.mpr ⟨hseq, hdata, fun h => absurd (hrst.symm.trans h) (by decide)⟩

section Sequencer

variable {c : CoreState} {p : Params}

/-- A core that is idle in both senses meets the sequencer's part. -/
theorem CoreState.SequencerInv.of_idle (hbusy : c.status.busy = false) (hpending : c.pending = none) :
    c.SequencerInv p where
  sequenced := by unfold CoreState.Sequenced; rw [hbusy, hpending]; rfl
  coherent q hq := by rw [hpending] at hq; cases hq
  runningClean h := by rw [hbusy] at h; cases h

/-- With BUSY clear nothing is pending (R21). -/
theorem CoreState.SequencerInv.pending_eq_none (h : c.SequencerInv p)
    (hbusy : c.status.busy = false) : c.pending = none := by
  have hseq := h.sequenced
  unfold CoreState.Sequenced at hseq
  rw [hbusy] at hseq
  exact Option.isNone_iff_eq_none.mp (by simpa using hseq.symm)

/-- An update that keeps BUSY, PENDING, the operands and ERR, and does not set DONE, keeps the
sequencer's part. -/
theorem CoreState.SequencerInv.of_frame {c' : CoreState} (h : c.SequencerInv p)
    (hbusy : c'.status.busy = c.status.busy) (hpending : c'.pending = c.pending)
    (hcapture : c'.capture p = c.capture p) (herr : c'.status.err = c.status.err)
    (hdone : c.status.done = false → c'.status.done = false) : c'.SequencerInv p where
  sequenced := by unfold CoreState.Sequenced; rw [hbusy, hpending]; exact h.sequenced
  coherent q hq := by rw [hcapture]; exact h.coherent q (hpending ▸ hq)
  runningClean hb := by
    obtain ⟨hd, he⟩ := h.runningClean (hbusy ▸ hb)
    exact ⟨hdone hd, herr.trans he⟩

/-- A refused access keeps the sequencer's part (R114, R115). -/
theorem CoreState.SequencerInv.setLockErr (h : c.SequencerInv p) : c.setLockErr.SequencerInv p :=
  h.of_frame rfl rfl rfl rfl id

/-- Acceptance captures the operands as they stand (R110, R111). -/
theorem CoreState.SequencerInv.of_accept (c : CoreState) (w : Word) (p : Params) :
    (c.accept w p).SequencerInv p where
  sequenced := rfl
  coherent q hq := by cases hq; rfl
  runningClean _ := ⟨rfl, rfl⟩

@[simp] theorem regStore_busy (r : Reg) (v : Word) (c : CoreState) :
    (regStore r v c).status.busy = c.status.busy := by
  cases r <;> rfl

@[simp] theorem regStore_pending (r : Reg) (v : Word) (c : CoreState) :
    (regStore r v c).pending = c.pending := by
  cases r <;> rfl

@[simp] theorem regStore_err (r : Reg) (v : Word) (c : CoreState) :
    (regStore r v c).status.err = c.status.err := by
  cases r <;> rfl

/-- No register's store sets DONE (R27). -/
theorem regStore_done (r : Reg) (v : Word) {c : CoreState} (h : c.status.done = false) :
    (regStore r v c).status.done = false := by
  cases r with
  | status => simp [regStore, h]
  | _ => exact h

/-- The registers open to writes while busy are no command's operands (R111, R114). -/
theorem regStore_capture {r : Reg} (hopen : r.writeLocked = false) (v : Word) (c : CoreState)
    (p : Params) : (regStore r v c).capture p = c.capture p := by
  cases r with
  | ctrl | inLen | key | blk | iv => cases hopen
  | id | cmd | status | irqEn | outLen | active => rfl

/-- A store that the lock lets through keeps the sequencer's part (R71, R114). -/
theorem CoreState.SequencerInv.regStore (h : c.SequencerInv p) {r : Reg}
    (hopen : (c.status.busy && r.writeLocked) = false) (v : Word) :
    (Machine.regStore r v c).SequencerInv p := by
  cases hbusy : c.status.busy with
  | false =>
    exact .of_idle ((regStore_busy r v c).trans hbusy)
      ((regStore_pending r v c).trans (h.pending_eq_none hbusy))
  | true =>
    have hunlocked : r.writeLocked = false := by simpa [hbusy] using hopen
    exact h.of_frame (regStore_busy r v c) (regStore_pending r v c)
      (regStore_capture hunlocked v c p) (regStore_err r v c) (regStore_done r v)

end Sequencer

section Data

variable {c : CoreState} {p : Params}

/-- The reset record meets the data's part, whatever its InBuf drew (R41). -/
theorem CoreState.DataInv.of_reset {m : Memory} (hm : Memory.wf m p.inBufBytes) :
    (CoreState.reset m p).DataInv p where
  errorLegal := ⟨Nat.zero_le _, fun _ => rfl⟩
  activeLegal := ⟨(nomatch ·), fun _ => rfl⟩
  scheduleValid h := nomatch h
  memoriesWf := ⟨hm, Memory.wf_nil _, by simp⟩
  outLenBounded := Nat.zero_le _

theorem CoreState.DataInv.setLockErr (h : c.DataInv p) : c.setLockErr.DataInv p :=
  ⟨h.errorLegal, h.activeLegal, h.scheduleValid, h.memoriesWf, h.outLenBounded⟩

/-- Acceptance clears ERR and ERRCODE together (R110). -/
theorem CoreState.DataInv.accept (h : c.DataInv p) (w : Word) : (c.accept w p).DataInv p :=
  ⟨⟨Nat.zero_le _, fun _ => rfl⟩, h.activeLegal, h.scheduleValid, h.memoriesWf, h.outLenBounded⟩

/-- No register's store touches what the data's part speaks of. -/
theorem CoreState.DataInv.regStore (h : c.DataInv p) (r : Reg) (v : Word) :
    (Machine.regStore r v c).DataInv p := by
  cases r <;>
    exact ⟨h.errorLegal, h.activeLegal, h.scheduleValid, h.memoriesWf, h.outLenBounded⟩

/-- A write inside InBuf keeps the data's part. -/
theorem CoreState.DataInv.writeInBuf (h : c.DataInv p) {k : Nat} {bs : List Byte}
    (hfit : k + bs.length ≤ p.inBufBytes) :
    ({ c with inBuf := Memory.write c.inBuf k bs } : CoreState).DataInv p := by
  obtain ⟨hin, hout, hsched⟩ := h.memoriesWf
  exact ⟨h.errorLegal, h.activeLegal, h.scheduleValid, ⟨Memory.wf_write hin hfit, hout, hsched⟩,
    h.outLenBounded⟩

/-- Output that fits OutBuf keeps the data's part (R30). -/
theorem CoreState.DataInv.deliver (h : c.DataInv p) {out : List Byte}
    (hfit : out.length ≤ p.outBufBytes) : (c.deliver out).DataInv p := by
  obtain ⟨hin, hout, hsched⟩ := h.memoriesWf
  have hmem : Memory.wf (Memory.write c.outBuf 0 out) p.outBufBytes :=
    Memory.wf_write hout (by omega)
  have hlen : (BitVec.ofNat 32 out.length).toNat ≤ p.outBufBytes := by
    rw [BitVec.toNat_ofNat]
    exact (Nat.mod_le _ _).trans hfit
  exact ⟨h.errorLegal, h.activeLegal, h.scheduleValid, ⟨hin, hmem, hsched⟩, hlen⟩

theorem CoreState.DataInv.complete (h : c.DataInv p) : c.complete.DataInv p :=
  ⟨h.errorLegal, h.activeLegal, h.scheduleValid, h.memoriesWf, h.outLenBounded⟩

theorem ErrCode.code_le (e : ErrCode) : e.code.toNat ≤ 7 := by
  cases e <;> decide

/-- An error sets ERR with its code, and OUT_LEN to 0 or not at all (R228). -/
theorem CoreState.DataInv.fail (h : c.DataInv p) (b : Bool) (e : ErrCode) :
    (c.fail b e).DataInv p := by
  have hlen : (c.fail b e).OutLenBounded p := by
    cases b with
    | true => exact Nat.zero_le _
    | false => exact h.outLenBounded
  exact ⟨⟨e.code_le, (nomatch ·)⟩, h.activeLegal, h.scheduleValid, h.memoriesWf, hlen⟩

end Data

/-- A bus transaction keeps both parts (R67, R71). -/
theorem transact_keeps_inv {c : CoreState} {p : Params} (hp : p.wf = true)
    (hseq : c.SequencerInv p) (hdata : c.DataInv p) (t : Txn) :
    (transact t c p).2.SequencerInv p ∧ (transact t c p).2.DataInv p := by
  cases t with
  | read a n =>
    rcases memRead_core a n c p with h | ⟨_, _, h⟩ <;> simp only [transact, h]
    · exact ⟨hseq, hdata⟩
    · exact ⟨hseq.setLockErr, hdata.setLockErr⟩
  | write a n v =>
    rcases memWrite_core a n v c hp with
      h | ⟨_, h⟩ | ⟨_, h⟩ | ⟨r, hopen, h⟩ | ⟨k, hbusy, hfit, h⟩ <;> simp only [transact, h]
    · exact ⟨hseq, hdata⟩
    · exact ⟨hseq.setLockErr, hdata.setLockErr⟩
    · exact ⟨.of_accept c v p, hdata.accept v⟩
    · exact ⟨hseq.regStore hopen v, hdata.regStore r v⟩
    · exact ⟨.of_idle hbusy (hseq.pending_eq_none hbusy), hdata.writeInBuf (by simpa using hfit)⟩

end Sys2Proof.Machine
end

section
/-! PROOFS. The invariants hold at reset (O57), and every command and every step keeps them (O58). -/

namespace Sys2Proof.Machine

/-- The reset record has the invariant at either level of `rst_n` (R41, R250). -/
theorem State.inv_of_reset {s : State} {p : Params} {m : Memory} (hm : Memory.wf m p.inBufBytes)
    (hcore : s.core = CoreState.reset m p) : s.Inv p := by
  rw [State.inv_iff, State.ResetHeld, hcore]
  exact ⟨.of_idle rfl rfl, .of_reset hm, fun _ => rfl⟩

section Steps

variable {s t : State} {p : Params}

/-- A completion keeps the invariant if the command's updates keep the data's part. -/
theorem State.finish_keeps_inv {b : Bool} {result : Except ErrCode CoreState}
    (hrst : s.rstN = true) (hdata : s.core.DataInv p)
    (hresult : ∀ c, result = .ok c → c.DataInv p) (h : s.finish b result = .next t) : t.Inv p := by
  rcases s.finish_cases b result with ⟨c, hc, hnext⟩ | ⟨e, _, hnext⟩ <;> cases hnext.symm.trans h
  · exact State.inv_of_rstN hrst (.of_idle rfl rfl) (hresult c hc).complete
  · exact State.inv_of_rstN hrst (.of_idle rfl rfl) (hdata.fail b e)

/-- A legal key length is one of the three of R144. -/
theorem keyLen_of_legal {k : BitVec 6} (h : legalKeyLen k.toNat p = true) :
    k = 16#6 ∨ k = 24#6 ∨ k = 32#6 := by
  simp only [legalKeyLen, Bool.and_eq_true, Bool.or_eq_true, beq_iff_eq] at h
  have hlen := h.1
  bv_omega

/-- A legal round count is positive and at most R_MAX. -/
theorem rounds_of_legal {r : Nat} (h : legalRounds r p = true) : 1 ≤ r ∧ r ≤ p.rMax := by
  simp only [legalRounds, Bool.and_eq_true, bne_iff_ne, ne_eq, decide_eq_true_eq] at h
  omega

/-- KEY_EXPAND stores the expansion of the captured key, with its length and round count in ACTIVE
(R36, R145). -/
theorem keyExpand_keeps_data {ops : Operands} {c c' : CoreState} (hp : p.wf = true)
    (hdata : c.DataInv p) (h : keyExpand ops c p = .ok c') : c'.DataInv p := by
  rcases keyExpand_cases ops c p with ⟨_, hk⟩ | ⟨_, _, hk⟩ | ⟨hlen, hrounds, hk⟩ <;>
    cases hk.symm.trans h
  obtain ⟨hin, hout, hsched⟩ := hdata.memoriesWf
  obtain ⟨hpos, hmax⟩ := rounds_of_legal hrounds
  have hfits : (expand ops.keyBytes ops.ctrl.rounds.toNat).length ≤ c.sched.length := by
    obtain ⟨_, htMax, _⟩ := Params.wf_iff.mp hp
    rw [expand_length]
    omega
  exact
    { errorLegal := hdata.errorLegal
      activeLegal := ⟨fun _ => ⟨hpos, hmax, keyLen_of_legal hlen⟩, (nomatch ·)⟩
      scheduleValid := fun _ =>
        ⟨ops.keyBytes, ops.keyBytes_length, storeSchedule_take (expand_length _ _)⟩
      memoriesWf := ⟨hin, hout, (storeSchedule_length hfits).trans hsched⟩
      outLenBounded := hdata.outLenBounded }

/-- KEY_CLEAR leaves no schedule, and T_MAX words of S (R146). -/
theorem keyClear_keeps_data {c : CoreState} (hdata : c.DataInv p) : (keyClear c p).DataInv p := by
  obtain ⟨hin, hout, _⟩ := hdata.memoriesWf
  exact
    { errorLegal := hdata.errorLegal
      activeLegal := ⟨(nomatch ·), fun _ => rfl⟩
      scheduleValid := (nomatch ·)
      memoriesWf := ⟨hin, hout, List.length_replicate⟩
      outLenBounded := hdata.outLenBounded }

/-- The BLK registers are no part of the invariant (R33). -/
theorem CoreState.DataInv.setBlk {c : CoreState} (h : c.DataInv p) (q : Quad) :
    ({ c with blk := q } : CoreState).DataInv p :=
  ⟨h.errorLegal, h.activeLegal, h.scheduleValid, h.memoriesWf, h.outLenBounded⟩

/-- The IV registers are no part of the invariant (R34). -/
theorem CoreState.DataInv.setIv {c : CoreState} (h : c.DataInv p) (q : Quad) :
    ({ c with iv := q } : CoreState).DataInv p :=
  ⟨h.errorLegal, h.activeLegal, h.scheduleValid, h.memoriesWf, h.outLenBounded⟩

theorem blkEnc_keeps_data {ops : Operands} {c c' : CoreState} (hdata : c.DataInv p)
    (h : blkEnc ops c = .ok c') : c'.DataInv p := by
  unfold blkEnc at h
  split at h <;> cases h
  exact hdata.setBlk _

theorem blkDec_keeps_data {ops : Operands} {c c' : CoreState} (hdata : c.DataInv p)
    (h : blkDec ops c = .ok c') : c'.DataInv p := by
  unfold blkDec at h
  split at h <;> cases h
  exact hdata.setBlk _

/-- The captured input fits OutBuf, which is no smaller than InBuf. -/
theorem captured_fits_outBuf (hp : p.wf = true) (c : CoreState) :
    (c.capture p).inBytes.length ≤ p.outBufBytes := by
  obtain ⟨-, -, -, -, -, -, -, hbufs, -, -⟩ := Params.wf_iff.mp hp
  rw [CoreState.capture_inBytes_length]
  omega

/-- PAD's output test bounds what it delivers (R183). -/
theorem padMessage_keeps_data {c c' : CoreState} (hdata : c.DataInv p)
    (h : padMessage (c.capture p) c p = .ok c') : c'.DataInv p := by
  rcases padMessage_cases (c.capture p) c p with hk | ⟨hin, hout, hk⟩ <;> cases hk.symm.trans h
  refine hdata.deliver ?_
  rw [CoreState.capture_inLen] at hin hout
  rw [padBytes_length, CoreState.capture_inBytes_length, min_eq_left hin]
  exact hout

/-- UNPAD delivers no more than it captured (R184). -/
theorem unpadMessage_keeps_data {c c' : CoreState} (hp : p.wf = true) (hdata : c.DataInv p)
    (h : unpadMessage (c.capture p) c p = .ok c') : c'.DataInv p := by
  rcases unpadMessage_cases (c.capture p) c p with hk | hk | ⟨_, m, hm, hk⟩ <;>
    cases hk.symm.trans h
  exact hdata.deliver ((unpadBytes_length_le hm).trans (captured_fits_outBuf hp c))

/-- CBC_DEC delivers no more than it captured (R205). -/
theorem cbcDecrypt_keeps_data {c c' : CoreState} (hp : p.wf = true) (hdata : c.DataInv p)
    (h : cbcDecrypt (c.capture p) c p = .ok c') : c'.DataInv p := by
  rcases cbcDecrypt_cases (c.capture p) c p with ⟨e, hk⟩ | ⟨_, _, _, m, hm, hk⟩ <;>
    cases hk.symm.trans h
  exact hdata.deliver ((decryptChained_length_le hm).trans (captured_fits_outBuf hp c))

/-- CBC_ENC's output test bounds the IV and the ciphertext it delivers (R204). -/
theorem cbcEncrypt_keeps_data {c : CoreState} {iv : List Byte} (hdata : c.DataInv p)
    (hcheck : cbcEncCheck (c.capture p) p = none) (hiv : iv.length = 16) :
    (cbcEncrypt (c.capture p) iv c).DataInv p := by
  obtain ⟨_, hin, hout⟩ := cbcEncCheck_none hcheck
  rw [CoreState.capture_inLen] at hin hout
  refine (hdata.deliver ?_).setIv _
  rw [encryptChained_length _ _ _ hiv, CoreState.capture_inBytes_length, min_eq_left hin]
  exact hout

/-- CBC_ENC keeps the invariant: failing, waiting or encrypting. -/
theorem completeCbcEnc_keeps_inv (hs : s.Inv p) (hrst : s.rstN = true)
    (h : completeCbcEnc p s = .next t) : t.Inv p := by
  obtain ⟨hseq, hdata, _⟩ := State.inv_iff.mp hs
  rcases completeCbcEnc_cases p s with ⟨e, _, hk⟩ | ⟨_, _, _, hk⟩ | ⟨iv, hcheck, hiv, hk⟩ <;>
    cases hk.symm.trans h
  · exact State.inv_of_rstN hrst (.of_idle rfl rfl) (hdata.fail true e)
  · exact hs
  · rw [hseq.coherent.operands_eq] at hcheck ⊢
    exact State.inv_of_rstN hrst (.of_idle rfl rfl)
      (cbcEncrypt_keeps_data hdata hcheck (selectIv_length hiv)).complete

/-- Every command keeps the invariant out of reset, where alone the core runs one. -/
theorem execWith_keeps_inv (hp : p.wf = true) (hs : s.Inv p) (hrst : s.rstN = true) {i : Instr}
    (h : execWith p i s = .next t) : t.Inv p := by
  obtain ⟨hseq, hdata, _⟩ := State.inv_iff.mp hs
  have hops := hseq.coherent.operands_eq
  cases i with
  | keyExpand =>
    exact State.finish_keeps_inv hrst hdata (fun _ hc => keyExpand_keeps_data hp hdata hc) h
  | keyClear =>
    exact State.finish_keeps_inv (b := false) (result := .ok (keyClear s.core p)) hrst hdata
      (fun _ hc => Except.ok.inj hc ▸ keyClear_keeps_data hdata) h
  | blkEnc => exact State.finish_keeps_inv hrst hdata (fun _ hc => blkEnc_keeps_data hdata hc) h
  | blkDec => exact State.finish_keeps_inv hrst hdata (fun _ hc => blkDec_keeps_data hdata hc) h
  | cbcEnc => exact completeCbcEnc_keeps_inv hs hrst h
  | cbcDec =>
    exact State.finish_keeps_inv hrst hdata
      (fun _ hc => cbcDecrypt_keeps_data hp hdata (hops ▸ hc)) h
  | pad =>
    exact State.finish_keeps_inv hrst hdata (fun _ hc => padMessage_keeps_data hdata (hops ▸ hc)) h
  | unpad =>
    exact State.finish_keeps_inv hrst hdata
      (fun _ hc => unpadMessage_keeps_data hp hdata (hops ▸ hc)) h

/-- The core's turn keeps the invariant: it waits, runs the pending command or rejects its word. -/
theorem coreTurn_keeps_inv (hp : p.wf = true) (hs : s.Inv p)
    (h : coreTurn (execWith p) s = .next t) : t.Inv p := by
  rcases coreTurn_cases (execWith p) s with ⟨_, hk⟩ | ⟨w, i, hw, _, hk⟩ | ⟨w, e, hw, _, hk⟩
  · cases hk.symm.trans h
    exact hs
  · exact execWith_keeps_inv hp hs (pendingWord_eq_some hw).1 (hk.symm.trans h)
  · cases hk.symm.trans h
    obtain ⟨_, hdata, _⟩ := State.inv_iff.mp hs
    exact State.inv_of_rstN (pendingWord_eq_some hw).1 (.of_idle rfl rfl) (hdata.fail false _)

/-- A bus transaction keeps the invariant; in reset it has no step. -/
theorem applyBus_keeps_inv (hp : p.wf = true) (hs : s.Inv p) {x : Txn}
    (h : s.applyBus x p = .next t) : t.Inv p := by
  rcases s.applyBus_cases x p with ⟨_, hk⟩ | ⟨hrst, hk⟩ <;> cases hk.symm.trans h
  obtain ⟨hseq, hdata, _⟩ := State.inv_iff.mp hs
  obtain ⟨hseq', hdata'⟩ := transact_keeps_inv hp hseq hdata x
  exact State.inv_of_rstN hrst hseq' hdata'

/-- The release of reset keeps the invariant: it establishes the reset record again (R250). -/
theorem applyResetHigh_keeps_inv (hs : s.Inv p) : (s.applyResetHigh p).Inv p := by
  obtain ⟨hin, _, _⟩ := hs.memoriesWf
  unfold State.applyResetHigh
  split
  · exact hs
  · exact State.inv_of_reset hin rfl

/-- The invariant speaks of the core and `rst_n` alone. -/
theorem State.Inv.of_core_eq (hs : s.Inv p) (hcore : t.core = s.core) (hrst : t.rstN = s.rstN) :
    t.Inv p := by
  rw [State.inv_iff, State.ResetHeld, hcore, hrst]
  exact State.inv_iff.mp hs

/-- Every step keeps the invariant, whichever move it makes. -/
theorem stepWith_keeps_inv (hp : p.wf = true) (hs : s.Inv p) (h : stepWith p s = .next t) :
    t.Inv p := by
  have hmoved : s.afterMove.Inv p := hs.of_core_eq rfl rfl
  unfold stepWith at h
  cases hm : s.nextMove with rw [hm] at h
  | bus x => exact applyBus_keeps_inv hp hmoved h
  | core => exact coreTurn_keeps_inv hp hmoved h
  | entropy offer =>
    cases h
    exact hmoved.of_core_eq rfl rfl
  | resetLow draws =>
    cases h
    exact State.inv_of_reset (Memory.wf_ofDraws draws p.inBufBytes) rfl
  | resetHigh =>
    cases h
    exact applyResetHigh_keeps_inv hmoved

end Steps

/-- Settles O57: the reset record has the invariant, under any parameters. -/
theorem resetEstablishesInvariants : Obligations.ResetEstablishesInvariants :=
  ⟨State.inv_of_reset (Memory.wf_nil _) rfl, fun _ _ => State.inv_of_reset (Memory.wf_nil _) rfl⟩

/-- Settles O58, move by move (`stepWith_keeps_inv`); the step is the case of R9's values. -/
theorem stepKeepsInvariants : Obligations.StepKeepsInvariants :=
  ⟨fun s _ hs h => stepWith_keeps_inv Config.params_wf hs ((stepWith_default s).trans h),
    fun _ _ _ hp hs h => stepWith_keeps_inv hp hs h⟩

end Sys2Proof.Machine
end

section
/-! PROOFS. What an access to a register or to a buffer answers at R9's parameters, one rule per
region (R62, R70, R71): the proofs about the bus use these and unfold neither `memRead` nor
`memWrite`. -/

namespace Sys2Proof.Machine

/-! ### Registers -/

/-- The map has 24 registers (R23). -/
theorem regAt_lt {k : Nat} {r : Reg} (h : regAt k = some r) : k < 24 := by
  by_contra hk
  obtain ⟨j, rfl⟩ : ∃ j, k = j + 24 := ⟨k - 24, by omega⟩
  cases h

theorem exists_regAt : ∀ k < 24, ∃ r, regAt k = some r := by
  simp only [← Option.isSome_iff_exists]
  decide

/-- No register stands at two offsets (R23). -/
theorem regAt_injective {j k : Nat} {r : Reg} (hj : regAt j = some r) (hk : regAt k = some r) :
    j = k := by
  have hinj : ∀ j < 24, ∀ k < 24, regAt j = regAt k → j = k := by decide
  exact hinj j (regAt_lt hj) k (regAt_lt hk) (hj.trans hk.symm)

/-- KEYi stands at word 8 + i (R23). -/
theorem regAt_key : ∀ i : Fin 8, regAt (8 + i.val) = some (.key i) := by decide

/-- The offset of word k of the register region (R62). -/
theorem toNat_wordOffset {k : Nat} (hk : k < 24) : (BitVec.ofNat 14 (4 * k)).toNat = 4 * k := by
  rw [BitVec.toNat_ofNat]
  omega

theorem regionAt_word {k : Nat} {r : Reg} (h : regAt k = some r) :
    regionAt (BitVec.ofNat 14 (4 * k)) = .reg r := by
  have hk := regAt_lt h
  have hdiv : 4 * k / 4 = k := by omega
  rw [regionAt_default, toNat_wordOffset hk, if_pos (by omega), hdiv, h]

/-- A word access to a register is aligned (R64). -/
theorem wordOffset_aligned {k : Nat} {r : Reg} (h : regAt k = some r) :
    ¬ (BitVec.ofNat 14 (4 * k)).toNat % widthBytes .b4 ≠ 0 := by
  rw [toNat_wordOffset (regAt_lt h), not_not]
  exact Nat.mul_mod_right 4 k

/-- A word read of a register (R70, R114). -/
theorem memRead_word {k : Nat} {r : Reg} (h : regAt k = some r) (c : CoreState) :
    memRead (BitVec.ofNat 14 (4 * k)) .b4 c =
      if c.status.busy && r.readLocked then (errorResponse, c.setLockErr)
      else (okayWith (regRead c r), c) := by
  unfold memRead
  rw [if_neg (wordOffset_aligned h), regionAt_word h]
  rfl

/-- A word read that no lock stops answers the register's value. -/
theorem memRead_word_unlocked {k : Nat} {r : Reg} (h : regAt k = some r) {c : CoreState}
    (hopen : (c.status.busy && r.readLocked) = false) :
    memRead (BitVec.ofNat 14 (4 * k)) .b4 c = (okayWith (regRead c r), c) := by
  simp [memRead_word h, hopen]

/-- A word write of a register other than CMD (R69, R71, R114). -/
theorem memWrite_word {k : Nat} {r : Reg} (h : regAt k = some r) (hcmd : r ≠ .cmd) (v : Word)
    (c : CoreState) :
    memWrite (BitVec.ofNat 14 (4 * k)) .b4 v c =
      if r.readOnly then (errorResponse, c)
      else if c.status.busy && r.writeLocked then (errorResponse, c.setLockErr)
      else (okayWith 0#32, regStore r v c) := by
  unfold memWrite
  rw [if_neg (wordOffset_aligned h), regionAt_word h]
  simp [hcmd]

/-- A word write of a writable register that no lock stops is stored. -/
theorem memWrite_word_unlocked {k : Nat} {r : Reg} (h : regAt k = some r) (hcmd : r ≠ .cmd)
    (hwritable : r.readOnly = false) (v : Word) {c : CoreState}
    (hopen : (c.status.busy && r.writeLocked) = false) :
    memWrite (BitVec.ofNat 14 (4 * k)) .b4 v c = (okayWith 0#32, regStore r v c) := by
  simp [memWrite_word h hcmd, hwritable, hopen]

/-! The registers that have rules of their own, by their offsets in the map. -/

@[simp] theorem memRead_id (c : CoreState) :
    memRead 0x0000#14 .b4 c = (okayWith Config.idValue, c) :=
  memRead_word_unlocked (k := 0) rfl (Bool.and_false _)

@[simp] theorem memRead_ctrl (c : CoreState) :
    memRead 0x0004#14 .b4 c = (okayWith c.ctrl.toWord, c) :=
  memRead_word_unlocked (k := 1) rfl (Bool.and_false _)

@[simp] theorem memRead_status (c : CoreState) :
    memRead 0x000C#14 .b4 c = (okayWith c.status.toWord, c) :=
  memRead_word_unlocked (k := 3) rfl (Bool.and_false _)

@[simp] theorem memRead_irqEn (c : CoreState) :
    memRead 0x0010#14 .b4 c = (okayWith (bitAt c.doneIe 0), c) :=
  memRead_word_unlocked (k := 4) rfl (Bool.and_false _)

@[simp] theorem memRead_active (c : CoreState) :
    memRead 0x001C#14 .b4 c = (okayWith c.active.toWord, c) :=
  memRead_word_unlocked (k := 7) rfl (Bool.and_false _)

@[simp] theorem memWrite_id (v : Word) (c : CoreState) :
    memWrite 0x0000#14 .b4 v c = (errorResponse, c) :=
  memWrite_word (k := 0) rfl (by decide) v c

@[simp] theorem memWrite_ctrl (v : Word) (c : CoreState) :
    memWrite 0x0004#14 .b4 v c =
      if c.status.busy then (errorResponse, c.setLockErr)
      else (okayWith 0#32, { c with ctrl := Ctrl.ofWord v }) := by
  simpa [Reg.readOnly, Reg.writeLocked, regStore] using
    memWrite_word (k := 1) (r := .ctrl) rfl (by decide) v c

@[simp] theorem memWrite_status (v : Word) (c : CoreState) :
    memWrite 0x000C#14 .b4 v c =
      (okayWith 0#32, { c with status := c.status.writeOneToClear v }) :=
  memWrite_word_unlocked (k := 3) rfl (by decide) rfl v (Bool.and_false _)

@[simp] theorem memWrite_irqEn (v : Word) (c : CoreState) :
    memWrite 0x0010#14 .b4 v c = (okayWith 0#32, { c with doneIe := v.getLsbD 0 }) :=
  memWrite_word_unlocked (k := 4) rfl (by decide) rfl v (Bool.and_false _)

@[simp] theorem memWrite_active (v : Word) (c : CoreState) :
    memWrite 0x001C#14 .b4 v c = (errorResponse, c) :=
  memWrite_word (k := 7) rfl (by decide) v c

/-! ### Buffers -/

theorem regionAt_inBuf_default {a : Offset} (hlo : 0x1000 ≤ a.toNat) (hhi : a.toNat < 0x2000) :
    regionAt a = .inBuf (a.toNat - 0x1000) := by
  rw [regionAt_default, if_neg (by omega), if_neg (by omega), if_pos hhi]

theorem regionAt_outBuf_default {a : Offset} (hlo : 0x2000 ≤ a.toNat) (hhi : a.toNat < 0x3000) :
    regionAt a = .outBuf (a.toNat - 0x2000) := by
  rw [regionAt_default, if_neg (by omega), if_neg (by omega), if_neg (by omega), if_pos hhi]

section Buffers

variable {a : Offset} {n : Width} {c : CoreState}

/-- An aligned read of InBuf while idle (R37, R70). -/
theorem memRead_inBuf (hidle : c.status.busy = false) (hlo : 0x1000 ≤ a.toNat)
    (hhi : a.toNat < 0x2000) (haligned : a.toNat % widthBytes n = 0) :
    memRead a n c =
      (okayWith (leValue (Memory.bytes c.inBuf (a.toNat - 0x1000) (widthBytes n))), c) := by
  unfold memRead
  rw [if_neg (not_not.mpr haligned), regionAt_inBuf_default hlo hhi]
  simp [hidle]

/-- An aligned write of InBuf while idle (R37, R71). -/
theorem memWrite_inBuf (hidle : c.status.busy = false) (hlo : 0x1000 ≤ a.toNat)
    (hhi : a.toNat < 0x2000) (haligned : a.toNat % widthBytes n = 0) (v : Word) :
    memWrite a n v c = (okayWith 0#32, { c with
      inBuf := Memory.write c.inBuf (a.toNat - 0x1000) (laneBytes v (widthBytes n)) }) := by
  unfold memWrite
  rw [if_neg (not_not.mpr haligned), regionAt_inBuf_default hlo hhi]
  simp [hidle]

/-- An aligned read of OutBuf while idle (R38, R70). -/
theorem memRead_outBuf (hidle : c.status.busy = false) (hlo : 0x2000 ≤ a.toNat)
    (hhi : a.toNat < 0x3000) (haligned : a.toNat % widthBytes n = 0) :
    memRead a n c =
      (okayWith (leValue ((List.range' (a.toNat - 0x2000) (widthBytes n)).map c.outByte)), c) := by
  unfold memRead
  rw [if_neg (not_not.mpr haligned), regionAt_outBuf_default hlo hhi]
  simp [hidle]

end Buffers

/-- The value of one byte (R63). -/
@[simp] theorem leValue_singleton (b : Byte) : leValue [b] = b.setWidth 32 := by
  simp [leValue]

/-- A byte read of InBuf while idle. -/
theorem memRead_inBuf_byte {a : Offset} {c : CoreState} (hidle : c.status.busy = false)
    (hlo : 0x1000 ≤ a.toNat) (hhi : a.toNat < 0x2000) :
    memRead a .b1 c = (okayWith ((Memory.read c.inBuf (a.toNat - 0x1000)).setWidth 32), c) := by
  rw [memRead_inBuf hidle hlo hhi (Nat.mod_one _)]
  simp [widthBytes, Memory.bytes]

/-- A byte read of OutBuf while idle. -/
theorem memRead_outBuf_byte {a : Offset} {c : CoreState} (hidle : c.status.busy = false)
    (hlo : 0x2000 ≤ a.toNat) (hhi : a.toNat < 0x3000) :
    memRead a .b1 c = (okayWith ((c.outByte (a.toNat - 0x2000)).setWidth 32), c) := by
  rw [memRead_outBuf hidle hlo hhi (Nat.mod_one _)]
  simp [widthBytes]

end Sys2Proof.Machine
end

section
/-! PROOFS. The words of CTRL, STATUS, IRQ_EN and ACTIVE bit by bit (R25, R27, R28, R31), and what a
register's store does to the value of each register (R71). -/

namespace Sys2Proof.Machine

/-! ### Where the bits of a register word are -/

@[simp] theorem bitAt_getLsbD (b : Bool) (k i : Nat) :
    (bitAt b k).getLsbD i = (decide (i < 32) && decide (i = k) && b) := by
  by_cases hik : i = k
  · simp [bitAt, hik]
  · have hbit : ¬ i < k → (BitVec.ofBool b).getLsbD (i - k) = false := fun h =>
      BitVec.getLsbD_of_ge _ _ (by omega)
    by_cases hlt : i < k
    · simp [bitAt, hik, hlt]
    · simp [bitAt, hik, hbit hlt]

@[simp] theorem bitAt_getElem (b : Bool) (k : Nat) {i : Nat} (hi : i < 32) :
    (bitAt b k)[i] = (decide (i = k) && b) := by
  rw [← BitVec.getLsbD_eq_getElem, bitAt_getLsbD, decide_eq_true hi, Bool.true_and]

/-- Above the fields of CTRL but for IV_MODE all is 0 (R25). -/
theorem Ctrl.toWord_reserved (c : Ctrl) {i : Nat} (h : 14 ≤ i) (hmode : i ≠ 16) :
    c.toWord.getLsbD i = false := by
  have hrounds : c.rounds.getLsbD i = false := BitVec.getLsbD_of_ge _ _ (by omega)
  have hlen : c.keyLen.getLsbD (i - 8) = false := BitVec.getLsbD_of_ge _ _ (by omega)
  simp [Ctrl.toWord, hrounds, hlen, hmode]

theorem Status.toWord_reserved (st : Status) {i : Nat} (h : 9 ≤ i) :
    st.toWord.getLsbD i = false := by
  have hcode : st.errCode.getLsbD (i - 4) = false := BitVec.getLsbD_of_ge _ _ (by omega)
  have hflags : i ≠ 0 ∧ i ≠ 1 ∧ i ≠ 2 ∧ i ≠ 3 ∧ i ≠ 8 := by omega
  simp [Status.toWord, hcode, hflags]

theorem Active.toWord_reserved (a : Active) {i : Nat} (h : 14 ≤ i) :
    a.toWord.getLsbD i = false := by
  have hrounds : a.schedR.getLsbD i = false := BitVec.getLsbD_of_ge _ _ (by omega)
  have hlen : a.schedKLen.getLsbD (i - 8) = false := BitVec.getLsbD_of_ge _ _ (by omega)
  simp [Active.toWord, hrounds, hlen]

/-- The ERRCODE field of STATUS (R27). -/
theorem Status.toWord_errCode (st : Status) : st.toWord.extractLsb' 4 4 = st.errCode := by
  apply BitVec.eq_of_getLsbD_eq
  intro i hi
  have hflags : 4 + i ≠ 0 ∧ 4 + i ≠ 1 ∧ 4 + i ≠ 2 ∧ 4 + i ≠ 3 ∧ 4 + i ≠ 8 := by omega
  have hword : 4 + i < 32 := by omega
  simp [Status.toWord, hflags, hi, hword]

/-- CTRL reads back the writable bits written (R25, R40). -/
theorem Ctrl.toWord_ofWord (v : Word) : (Ctrl.ofWord v).toWord = v &&& 0x00013FFF#32 := by
  have hmask : ∀ i < 32, (0x00013FFF#32).getLsbD i = decide (i < 14 ∨ i = 16) := by decide
  apply BitVec.eq_of_getLsbD_eq
  intro i hi
  rw [BitVec.getLsbD_and, hmask i hi]
  by_cases hmode : i = 16
  · subst hmode
    simp [Ctrl.toWord, Ctrl.ofWord]
  · by_cases hfield : i < 14
    · by_cases hrounds : i < 8
      · simp [Ctrl.toWord, Ctrl.ofWord, hmode, hfield, hrounds, hi]
      · have hlen : 8 ≤ i ∧ i - 8 < 6 ∧ 8 + (i - 8) = i := by omega
        simp [Ctrl.toWord, Ctrl.ofWord, hmode, hfield, hrounds, hi, hlen]
    · rw [Ctrl.toWord_reserved _ (by omega) hmode]
      simp [hmode, hfield]

/-- A word whose reserved bits are 0 has nothing outside the mask of the others. -/
theorem and_not_eq_zero {w mask : Word}
    (h : ∀ i < 32, mask.getLsbD i = false → w.getLsbD i = false) : w &&& ~~~mask = 0#32 := by
  apply BitVec.eq_of_getLsbD_eq
  intro i hi
  cases hm : mask.getLsbD i with
  | false => simp [h i hi hm]
  | true => simp [hm]

/-- A field that lies inside the mask is the same in the masked word. -/
theorem extractLsb'_and_mask {v mask : Word} {start len : Nat}
    (h : mask.extractLsb' start len = BitVec.allOnes len) :
    (v &&& mask).extractLsb' start len = v.extractLsb' start len := by
  rw [BitVec.extractLsb'_and, h, BitVec.and_allOnes]

/-- Writing CTRL ignores the reserved bits (R40). -/
theorem Ctrl.ofWord_mask (v : Word) : Ctrl.ofWord (v &&& 0x00013FFF#32) = Ctrl.ofWord v := by
  unfold Ctrl.ofWord
  rw [extractLsb'_and_mask (by decide), extractLsb'_and_mask (by decide)]
  simp

/-- Writing STATUS looks at bits 1 and 3 alone (R27, R40). -/
theorem Status.writeOneToClear_mask (st : Status) (v : Word) :
    st.writeOneToClear (v &&& 0x000001FF#32) = st.writeOneToClear v := by
  simp [Status.writeOneToClear]

/-! ### Stores -/

@[simp] theorem quadGet_quadSet_self (q : Quad) (i : Fin 4) (v : Word) :
    quadGet (quadSet q i v) i = v := by
  fin_cases i <;> rfl

theorem quadGet_quadSet_of_ne (q : Quad) {i j : Fin 4} (h : j ≠ i) (v : Word) :
    quadGet (quadSet q i v) j = quadGet q j := by
  fin_cases i <;> fin_cases j <;> simp_all [quadGet, quadSet]

/-- A store changes the value of its own register alone. -/
theorem regRead_regStore_of_ne {r r' : Reg} (h : r' ≠ r) (v : Word) (c : CoreState) :
    regRead (regStore r v c) r' = regRead c r' := by
  cases r with
  | blk i =>
    cases r' with
    | blk j => exact quadGet_quadSet_of_ne _ (fun e => h (congrArg _ e)) _
    | _ => rfl
  | iv i =>
    cases r' with
    | iv j => exact quadGet_quadSet_of_ne _ (fun e => h (congrArg _ e)) _
    | _ => rfl
  | key i => cases r' <;> rfl
  | id | cmd | outLen | active => rfl
  | ctrl | status | irqEn | inLen => cases r' <;> simp_all [regStore, regRead]

/-- The registers that hold any word and read it back: IN_LEN, BLK and IV (R29, R33, R34). -/
def Reg.holdsWord : Reg → Bool
  | .inLen | .blk _ | .iv _ => true
  | .id | .ctrl | .cmd | .status | .irqEn | .outLen | .active | .key _ => false

theorem regAt_holdsWord {k : Nat} {r : Reg} (h : regAt k = some r) :
    r.holdsWord = true ↔ k = 5 ∨ (16 ≤ k ∧ k < 24) := by
  have hall : ∀ k < 24, ((regAt k).any Reg.holdsWord = true ↔ k = 5 ∨ (16 ≤ k ∧ k < 24)) := by
    decide
  simpa [h] using hall k (regAt_lt h)

/-- Such a register is neither CMD nor read-only. -/
theorem Reg.holdsWord_writable {r : Reg} (h : r.holdsWord = true) :
    r ≠ .cmd ∧ r.readOnly = false := by
  cases r with
  | inLen | blk | iv => exact ⟨by simp, rfl⟩
  | _ => cases h

theorem regRead_regStore_self {r : Reg} (h : r.holdsWord = true) (v : Word) (c : CoreState) :
    regRead (regStore r v c) r = v := by
  cases r with
  | inLen => rfl
  | blk i => exact quadGet_quadSet_self _ i v
  | iv i => exact quadGet_quadSet_self _ i v
  | _ => cases h

/-- A store of such a register changes no state but these registers. -/
theorem regStore_frame {r : Reg} (h : r.holdsWord = true) (v : Word) (c : CoreState) :
    regStore r v c = { c with
      inLen := (regStore r v c).inLen
      blk := (regStore r v c).blk
      iv := (regStore r v c).iv } := by
  cases r with
  | inLen | blk | iv => rfl
  | _ => cases h

/-- After reset every register but ID and CTRL reads 0 (R41, R252). -/
theorem regRead_reset (m : Memory) {r : Reg} (hid : r ≠ .id) (hctrl : r ≠ .ctrl) :
    regRead (CoreState.reset m) r = 0#32 := by
  cases r with
  | id => exact absurd rfl hid
  | ctrl => exact absurd rfl hctrl
  | blk i => fin_cases i <;> rfl
  | iv i => fin_cases i <;> rfl
  | status => exact (by decide : Status.reset.toWord = 0#32)
  | active => exact (by decide : Active.reset.toWord = 0#32)
  | _ => rfl

end Sys2Proof.Machine
end

section
/-! PROOFS. The registers on the bus: what a write stores, what a read answers, and the reserved
bits (O45, O48, O49, O51). -/

namespace Sys2Proof.Machine

/-- What a register that holds a whole word does on the bus while idle (R29, R33, R34). -/
theorem word_write_then_read {k : Nat} {r : Reg} (hr : regAt k = some r)
    (hholds : r.holdsWord = true) (v : Word) {c : CoreState} (hidle : c.status.busy = false) : ∃ c',
      memWrite (BitVec.ofNat 14 (4 * k)) .b4 v c = (okayWith 0#32, c') ∧
      c' = { c with inLen := c'.inLen, blk := c'.blk, iv := c'.iv } ∧
      memRead (BitVec.ofNat 14 (4 * k)) .b4 c' = (okayWith v, c') ∧
      ∀ j, j < 24 → j ≠ k → (memRead (BitVec.ofNat 14 (4 * j)) .b4 c').1 =
        (memRead (BitVec.ofNat 14 (4 * j)) .b4 c).1 := by
  obtain ⟨hcmd, hwritable⟩ := Reg.holdsWord_writable hholds
  refine ⟨regStore r v c, memWrite_word_unlocked hr hcmd hwritable v (by simp [hidle]),
    regStore_frame hholds v c, ?_, fun j hj hne => ?_⟩
  · rw [memRead_word_unlocked hr (by simp [hidle]), regRead_regStore_self hholds]
  · obtain ⟨r', hr'⟩ := exists_regAt j hj
    have hdiff : r' ≠ r := fun h => hne (regAt_injective hr' (h ▸ hr))
    rw [memRead_word_unlocked hr' (by simp [hidle]), memRead_word_unlocked hr' (by simp [hidle]),
      regRead_regStore_of_ne hdiff]

/-- A KEY write while idle stores its word in that register alone (R32). -/
theorem memWrite_key (i : Fin 8) (v : Word) {c : CoreState} (hidle : c.status.busy = false) :
    memWrite (BitVec.ofNat 14 (0x0020 + 4 * i.val)) .b4 v c =
      (okayWith 0#32, { c with key := c.key.set i v }) := by
  have hoffset : 0x0020 + 4 * i.val = 4 * (8 + i.val) := by omega
  rw [hoffset]
  exact memWrite_word_unlocked (regAt_key i) (by simp) rfl v (by simp [hidle])

/-- Settles O45, register by register. -/
theorem registersHoldWhatIsWritten : Obligations.RegistersHoldWhatIsWritten := by
  refine ⟨fun v c hidle => ⟨fun k hk => ?_, fun i => memWrite_key i v hidle, ?_⟩, memWrite_irqEn⟩
  · obtain ⟨r, hr⟩ := exists_regAt k (by omega)
    exact word_write_then_read hr ((regAt_holdsWord hr).mpr hk) v hidle
  · rw [memWrite_ctrl, hidle]
    rfl

/-- Settles O48: the store of STATUS, and its fields at their bits. -/
theorem statusWriteOneToClear : Obligations.StatusWriteOneToClear := by
  refine ⟨fun v c => ?_, fun c => ⟨_, memRead_status c, ?_⟩⟩
  · have hclear : ∀ bit flag : Bool, (if bit then false else flag) = (flag && !bit) := by decide
    rw [memWrite_status]
    simp only [Status.writeOneToClear, hclear]
    rfl
  · have hreserved : c.status.toWord.extractLsb' 9 23 = 0#23 := by
      apply BitVec.eq_of_getLsbD_eq
      intro i hi
      rw [BitVec.getLsbD_extractLsb', Status.toWord_reserved _ (by omega)]
      simp
    refine ⟨?_, ?_, ?_, ?_, c.status.toWord_errCode, ?_, hreserved⟩ <;> simp [Status.toWord]

/-- Settles O51. -/
theorem idIsHardwired : Obligations.IdIsHardwired :=
  fun v c => ⟨memRead_id c, memWrite_id v c⟩

/-- The reserved bits of the four registers read 0 (R40). -/
theorem reserved_bits_read_zero (c : CoreState) :
    c.ctrl.toWord &&& ~~~0x00013FFF#32 = 0#32 ∧ c.status.toWord &&& ~~~0x000001FF#32 = 0#32 ∧
      bitAt c.doneIe 0 &&& ~~~0x00000001#32 = 0#32 ∧
      c.active.toWord &&& ~~~0x00003FFF#32 = 0#32 := by
  have hctrl : ∀ i < 32, (0x00013FFF#32).getLsbD i = false → 14 ≤ i ∧ i ≠ 16 := by decide
  have hstatus : ∀ i < 32, (0x000001FF#32).getLsbD i = false → 9 ≤ i := by decide
  have hirqEn : ∀ i < 32, (0x00000001#32).getLsbD i = false → i ≠ 0 := by decide
  have hactive : ∀ i < 32, (0x00003FFF#32).getLsbD i = false → 14 ≤ i := by decide
  refine ⟨and_not_eq_zero fun i hi h => ?_, and_not_eq_zero fun i hi h => ?_,
    and_not_eq_zero fun i hi h => ?_, and_not_eq_zero fun i hi h => ?_⟩
  · obtain ⟨hfields, hmode⟩ := hctrl i hi h
    exact c.ctrl.toWord_reserved hfields hmode
  · exact c.status.toWord_reserved (hstatus i hi h)
  · simp [hirqEn i hi h]
  · exact c.active.toWord_reserved (hactive i hi h)

/-- Settles O49: the reads by where the bits of each word are, the writes because a store looks at
its fields alone. -/
theorem reservedBitsIgnored : Obligations.ReservedBitsIgnored := by
  intro v c
  obtain ⟨hctrl, hstatus, hirqEn, hactive⟩ := reserved_bits_read_zero c
  refine ⟨?_, ?_, ?_, ?_, ?_, ?_, ?_, ?_, fun hidle => ?_⟩
  · rw [memRead_ctrl]; exact hctrl
  · rw [memRead_status]; exact hstatus
  · rw [memRead_irqEn]; exact hirqEn
  · rw [memRead_active]; exact hactive
  · rw [memWrite_ctrl, memWrite_ctrl, Ctrl.ofWord_mask]
  · rw [memWrite_status, memWrite_status, Status.writeOneToClear_mask]
  · rw [memWrite_irqEn, memWrite_irqEn]
    simp
  · rw [memWrite_active, memWrite_active]
  · rw [memRead_ctrl, memWrite_ctrl, hidle]
    exact congrArg (fun w => (okayWith w, _)) (Ctrl.toWord_ofWord v)

end Sys2Proof.Machine
end

section
/-! PROOFS. The byte order of words (R63): the value of a word's low bytes, and key packing (R140,
O15). -/

namespace Sys2Proof.Machine

/-- Words with the same bytes are equal. -/
theorem eq_of_byteLane_eq {v w : Word} (h : ∀ j < 4, byteLane v j = byteLane w j) : v = w := by
  apply BitVec.eq_of_getLsbD_eq
  intro i hi
  have hbit : ∀ x : Word, x.getLsbD i = (byteLane x (i / 8)).getLsbD (i % 8) := fun x => by
    have hpos : 8 * (i / 8) + i % 8 = i := Nat.div_add_mod i 8
    simp [byteLane, Nat.mod_lt, hpos]
  rw [hbit, hbit, h (i / 8) (by omega)]

/-- The value of the low n bytes of a word is the word with all above them 0 (R63). -/
theorem leValue_laneBytes (v : Word) {n : Nat} (hn : n ≤ 4) :
    leValue (laneBytes v n) = (v.setWidth (8 * n)).setWidth 32 := by
  apply eq_of_byteLane_eq
  intro j hj
  rw [byteLane_leValue _ hj]
  apply BitVec.eq_of_getLsbD_eq
  intro i hi
  by_cases hjn : j < n
  · have hin : 8 * j + i < 8 * n := by omega
    have hword : 8 * j + i < 32 := by omega
    simp [laneBytes, byteLane, hjn, hi, hin, hword]
  · have hout : ¬ 8 * j + i < 8 * n := by omega
    simp [laneBytes, byteLane, hjn, hi, hout]

/-- The value of all four bytes of a word is the word. -/
theorem leValue_laneBytes_four (v : Word) : leValue (laneBytes v 4) = v := by
  rw [leValue_laneBytes v (le_refl 4)]
  simp

/-- The value of four bytes, in the formula of R140. -/
theorem leValue_four (b₀ b₁ b₂ b₃ : Byte) :
    leValue [b₀, b₁, b₂, b₃] = b₀.setWidth 32 ||| b₁.setWidth 32 <<< 8 ||| b₂.setWidth 32 <<< 16
      ||| b₃.setWidth 32 <<< 24 := by
  simp [leValue, BitVec.shiftLeft_or_distrib, BitVec.or_assoc]

/-! ### Key packing -/

@[simp] theorem packByte_length (kb : Byte × Nat) (l : List Word) :
    (packByte kb l).length = l.length := by
  simp [packByte]

theorem foldr_packByte_length (kbs : List (Byte × Nat)) (l : List Word) :
    (kbs.foldr packByte l).length = l.length := by
  induction kbs with
  | nil => rfl
  | cons kb kbs ih => rw [List.foldr_cons, packByte_length, ih]

@[simp] theorem packKey_length (key : List Byte) :
    (packKey key).length = (key.length + 3) / 4 := by
  rw [packKey, foldr_packByte_length, List.length_replicate]

/-- Packing a byte shifts it into its word from below, and leaves the other words. -/
theorem packByte_getD (b : Byte) (n : Nat) {l : List Word} {w : Nat} (hw : w < l.length) :
    (packByte (b, n) l).getD w 0#32 =
      if n / 4 = w then l.getD w 0#32 <<< 8 ||| b.setWidth 32 else l.getD w 0#32 := by
  by_cases h : n / 4 = w
  · subst h
    simp [packByte, hw]
  · simp [packByte, h]

/-- Word w of bytes packed from index n on is the value of those whose index falls in that word. -/
theorem foldr_packByte_getD (bs : List Byte) (n : Nat) {c w : Nat} (hw : w < c) :
    ((bs.zipIdx n).foldr packByte (List.replicate c 0#32)).getD w 0#32 =
      leValue ((bs.take (4 * w + 4 - n)).drop (4 * w - n)) := by
  induction bs generalizing n with
  | nil => simp [leValue, hw]
  | cons b bs ih =>
    have hin_range : w < ((bs.zipIdx (n + 1)).foldr packByte (List.replicate c 0#32)).length := by
      simpa [foldr_packByte_length] using hw
    rw [List.zipIdx_cons, List.foldr_cons, packByte_getD b n hin_range, ih (n + 1)]
    by_cases hin : n / 4 = w
    · have htake : 4 * w + 4 - n = 4 * w + 4 - (n + 1) + 1 := by omega
      have hdrop : 4 * w - n = 0 ∧ 4 * w - (n + 1) = 0 := by omega
      rw [if_pos hin, htake, hdrop.1, hdrop.2, List.take_succ_cons, List.drop_zero, List.drop_zero]
      exact BitVec.or_comm _ _
    · rw [if_neg hin]
      by_cases hbelow : n < 4 * w
      · have htake : 4 * w + 4 - n = 4 * w + 4 - (n + 1) + 1 := by omega
        have hdrop : 4 * w - n = 4 * w - (n + 1) + 1 := by omega
        rw [htake, hdrop, List.take_succ_cons, List.drop_succ_cons]
      · have htake : 4 * w + 4 - n = 0 ∧ 4 * w + 4 - (n + 1) = 0 := by omega
        simp [htake]

/-- Word w of a packed key is the value of its bytes `4w .. 4w+3` (R140). -/
theorem packKey_getD (key : List Byte) {w : Nat} (hw : 4 * w + 4 ≤ key.length) :
    (packKey key).getD w 0#32 = leValue [key.getD (4 * w) 0#8, key.getD (4 * w + 1) 0#8,
      key.getD (4 * w + 2) 0#8, key.getD (4 * w + 3) 0#8] := by
  have hbytes : (key.take (4 * w + 4)).drop (4 * w) =
      (List.range 4).map fun j => key.getD (4 * w + j) 0#8 := by
    apply List.ext_getElem
    · rw [List.length_drop, List.length_take, List.length_map, List.length_range]
      omega
    · intro j _ hj
      rw [List.length_map, List.length_range] at hj
      rw [List.getElem_drop, List.getElem_take, List.getElem_map, List.getElem_range,
        List.getD_eq_getElem _ _ (by omega)]
  rw [packKey, foldr_packByte_getD key 0 (by omega)]
  exact congrArg leValue hbytes

/-- Key byte k is byte `k mod 4` of KEY register `k div 4` (R32, R145). -/
theorem Operands.keyBytes_getD (ops : Operands) {k : Nat} (hk : k < ops.ctrl.keyLen.toNat) :
    ops.keyBytes.getD k 0#8 = byteLane (ops.key.toList.getD (k / 4) 0#32) (k % 4) := by
  simp [Operands.keyBytes, hk]

/-- Packing the key bytes that KEY_EXPAND takes gives each KEY register back (R32, R140). -/
theorem packKey_keyBytes_getD (ops : Operands) {w : Nat} (hw : 4 * w + 4 ≤ ops.ctrl.keyLen.toNat) :
    (packKey ops.keyBytes).getD w 0#32 = ops.key.toList.getD w 0#32 := by
  have hbyte : ∀ j < 4, ops.keyBytes.getD (4 * w + j) 0#8 =
      byteLane (ops.key.toList.getD w 0#32) j := fun j hj => by
    have hdiv : (4 * w + j) / 4 = w := by omega
    have hmod : (4 * w + j) % 4 = j := by omega
    rw [ops.keyBytes_getD (by omega), hdiv, hmod]
  have h₀ := hbyte 0 (by omega)
  rw [Nat.add_zero] at h₀
  rw [packKey_getD _ (by rwa [Operands.keyBytes_length]), h₀, hbyte 1 (by omega),
    hbyte 2 (by omega), hbyte 3 (by omega)]
  exact leValue_laneBytes_four _

/-- Settles O15, word by word. -/
theorem keyPackingIsLittleEndian : Obligations.KeyPackingIsLittleEndian := by
  refine ⟨fun key hkey => ⟨?_, fun w hw => ?_⟩, fun ops hlen => ?_⟩
  · rw [packKey_length]
    omega
  · rw [packKey_getD key (by omega), leValue_four]
  · have hlegal : ops.ctrl.keyLen.toNat % 4 = 0 ∧ ops.ctrl.keyLen.toNat ≤ 32 := by
      rcases hlen with h | h | h <;> simp [h]
    have hregs : ops.key.toList.length = 8 := by simp
    apply List.ext_getElem
    · rw [packKey_length, Operands.keyBytes_length, List.length_take, hregs]
      omega
    · intro w hpacked hkept
      have hw := hpacked
      rw [packKey_length, Operands.keyBytes_length] at hw
      rw [← List.getD_eq_getElem _ 0#32 hpacked, packKey_keyBytes_getD ops (by omega),
        List.getElem_take, List.getD_eq_getElem]

end Sys2Proof.Machine
end

section
/-! PROOFS. The buffers on the bus (O46, O47), and the reset core on the bus (O53, O55). -/

namespace Sys2Proof.Machine

theorem widthBytes_le (n : Width) : widthBytes n ≤ 4 := by
  cases n <;> decide

/-- Bytes written to InBuf read back, at the same offset and width (R37, R63). -/
theorem leValue_written_bytes (m : Memory) (k : Nat) (v : Word) (n : Width) :
    (leValue (Memory.bytes (Memory.write m k (laneBytes v (widthBytes n))) k
      (widthBytes n))).toNat = v.toNat % 2 ^ (8 * widthBytes n) := by
  have hbytes := Memory.bytes_write m k (laneBytes v (widthBytes n))
  rw [laneBytes_length] at hbytes
  have hword : v.toNat % 2 ^ (8 * widthBytes n) < 2 ^ 32 :=
    (Nat.mod_le _ _).trans_lt v.isLt
  rw [hbytes, leValue_laneBytes v (widthBytes_le n), BitVec.toNat_setWidth, BitVec.toNat_setWidth,
    Nat.mod_eq_of_lt hword]

/-- Settles O46, from the rules of an InBuf access and the laws of `Memory.write`. -/
theorem inBufWriteThenRead : Obligations.InBufWriteThenRead := by
  intro a n v c hidle hlo hhi haligned
  have hend : a.toNat + widthBytes n ≤ 0x2000 := by
    cases n <;> simp only [widthBytes] at haligned ⊢ <;> omega
  refine ⟨_, memWrite_inBuf hidle hlo hhi haligned v, rfl, ?_, ?_, fun j hj => ?_, fun k hk => ?_⟩
  · rw [memRead_inBuf (by exact hidle) hlo hhi haligned]
    rfl
  · rw [memRead_inBuf (by exact hidle) hlo hhi haligned]
    exact leValue_written_bytes _ _ v n
  · have hoffset : (a + BitVec.ofNat 14 j).toNat = a.toNat + j := by
      rw [BitVec.toNat_add, BitVec.toNat_ofNat]
      omega
    have hindex : a.toNat + j - 0x1000 = a.toNat - 0x1000 + j := by omega
    rw [memRead_inBuf_byte (by exact hidle) (by omega) (by omega), hoffset, hindex,
      Memory.read_write_inside (by simpa using hj)]
    simp [laneBytes, byteLane, hj, okayWith]
  · exact Memory.read_write_outside (by simpa using hk)

/-- Byte j of the value of n bytes of OutBuf as the host sees them (R38, R63). -/
theorem byteLane_outBytes (c : CoreState) (k : Nat) {n : Width} {j : Nat} (hj : j < widthBytes n) :
    byteLane (leValue ((List.range' k (widthBytes n)).map c.outByte)) j = c.outByte (k + j) := by
  rw [byteLane_leValue _ (hj.trans_le (widthBytes_le n))]
  simp [hj]

/-- Settles O47: byte j of the value read is the masked byte j of OutBuf. -/
theorem outBufReadsMasked : Obligations.OutBufReadsMasked := by
  intro a n c hidle hlo hhi haligned
  refine ⟨_, memRead_outBuf hidle hlo hhi haligned, ?_, fun j hj => byteLane_outBytes c _ hj⟩
  simpa using leValue_lt ((List.range' (a.toNat - 0x2000) (widthBytes n)).map c.outByte)

/-- Settles O53, region by region. -/
theorem resetObservables : Obligations.ResetObservables := by
  intro m
  have hidle : (CoreState.reset m).status.busy = false := rfl
  refine ⟨memRead_id _, ?_, fun k hlo hhi => ?_, fun k hk => ?_, fun k hk => ?_, rfl⟩
  · have hctrl : Ctrl.reset.toWord = 0x00001014#32 := by decide
    rw [memRead_ctrl, CoreState.reset_ctrl, hctrl]
    rfl
  · obtain ⟨r, hr⟩ := exists_regAt k hhi
    have hid : r ≠ .id := fun h => absurd (regAt_injective (h ▸ hr) (k := 0) rfl) (by omega)
    have hctrl : r ≠ .ctrl := fun h => absurd (regAt_injective (h ▸ hr) (k := 1) rfl) (by omega)
    rw [memRead_word_unlocked hr (by rw [hidle, Bool.false_and]), regRead_reset m hid hctrl]
    rfl
  · have hoffset : (BitVec.ofNat 14 (0x2000 + k)).toNat = 0x2000 + k := by
      rw [BitVec.toNat_ofNat]
      omega
    rw [memRead_outBuf_byte hidle (by omega) (by omega)]
    simp [CoreState.outByte, okayWith]
  · have hoffset : (BitVec.ofNat 14 (0x1000 + k)).toNat = 0x1000 + k := by
      rw [BitVec.toNat_ofNat]
      omega
    rw [memRead_inBuf_byte hidle (by omega) (by omega), hoffset, Nat.add_sub_cancel_left]
    rfl

/-- Storing one byte above all entries appends its entry. -/
theorem Memory.write_above {m : Memory} {k : Nat} {b : Byte} (hm : ∀ c ∈ m, c.1 < k)
    (hb : b ≠ Memory.unlisted) : Memory.write m k [b] = m ++ [(k, b)] := by
  have hlow : m.filter (fun c => decide (c.1 < k)) = m :=
    List.filter_eq_self.mpr fun c hc => decide_eq_true (hm c hc)
  have hhigh : m.filter (fun c => decide (k + [b].length ≤ c.1)) = [] :=
    List.filter_eq_nil_iff.mpr fun c hc => by
      have := hm c hc
      simp only [decide_eq_true_eq]
      omega
  rw [Memory.write, hlow, hhigh, List.append_nil, Memory.cellsAt, if_neg hb, Memory.cellsAt]

/-- A memory in canonical form is what its own entries, taken as draws, make (U3). -/
theorem Memory.ofDraws_self {m : Memory} {size : Nat} (hm : Memory.wf m size) :
    Memory.ofDraws m size = m := by
  have hfold : ∀ (rest done : Memory), Memory.wf (done ++ rest) size →
      rest.foldl (fun m c => if c.1 < size then Memory.write m c.1 [c.2] else m) done =
        done ++ rest := by
    intro rest
    induction rest with
    | nil => simp
    | cons c rest ih =>
      intro done hwf
      obtain ⟨hsorted, hcells⟩ := hwf
      obtain ⟨hsize, hlisted⟩ := hcells c (by simp)
      have hbelow : ∀ x ∈ done, x.1 < c.1 := fun x hx =>
        (List.pairwise_append.mp hsorted).2.2 x hx c (by simp)
      have hsplit : done ++ c :: rest = done ++ [c] ++ rest := by simp
      rw [List.foldl_cons, if_pos hsize, Memory.write_above hbelow hlisted, hsplit]
      exact ih (done ++ [c]) (hsplit ▸ ⟨hsorted, hcells⟩)
  exact hfold m [] hm

/-- Settles O55: draw the entries of the memory. -/
theorem resetDrawsAnyContents : Obligations.ResetDrawsAnyContents := by
  refine fun m hm => ⟨m, fun s hmove => ⟨s.afterMove.applyResetLow m, ?_, ?_⟩⟩
  · rw [step, hmove]
    rfl
  · rw [State.applyResetLow_core, Config.params_inBufBytes, Memory.ofDraws_self hm]

end Sys2Proof.Machine
end

section
/-! PROOFS. Key material on the bus (O50): taking it out of the core changes no answer. -/

namespace Sys2Proof.Machine

@[simp] theorem CoreState.withoutKey_withoutKey (c : CoreState) :
    c.withoutKey.withoutKey = c.withoutKey := by
  cases h : c.pending <;> simp [CoreState.withoutKey, h]

/-- A read looks at no key material, and leaves it as it is (R32, R70). -/
theorem memRead_withoutKey (a : Offset) (n : Width) (c : CoreState) (p : Params) :
    memRead a n c.withoutKey p = ((memRead a n c p).1, (memRead a n c p).2.withoutKey) := by
  have hreg : ∀ r, regRead c.withoutKey r = regRead c r := fun r => by cases r <;> rfl
  have hbusy : c.withoutKey.status.busy = c.status.busy := rfl
  unfold memRead
  rw [hbusy]
  split
  · rfl
  · split
    · rfl
    · split
      · rfl
      · split
        · rfl
        · rw [hreg]
    · split <;> rfl
    · split <;> rfl

/-- A register's store that is not a KEY register's leaves key material alone, and a KEY register's
changes nothing else (R32). -/
theorem regStore_withoutKey (r : Reg) (v : Word) (c : CoreState) :
    (regStore r v c.withoutKey).withoutKey = (regStore r v c).withoutKey := by
  cases r with
  | key i => exact c.withoutKey_withoutKey
  | _ =>
    rw [← CoreState.withoutKey_withoutKey (regStore _ v c)]
    rfl

/-- A CMD write captures key material as key material (R110, R111). -/
theorem cmdWrite_withoutKey (v : Word) (c : CoreState) (p : Params) :
    (cmdWrite v c.withoutKey p).1 = (cmdWrite v c p).1 ∧
      (cmdWrite v c.withoutKey p).2.withoutKey = (cmdWrite v c p).2.withoutKey := by
  have hbusy : c.withoutKey.status.busy = c.status.busy := rfl
  unfold cmdWrite
  rw [hbusy]
  split
  · exact ⟨rfl, c.setLockErr.withoutKey_withoutKey⟩
  · exact ⟨rfl, rfl⟩

/-- A write answers the same with the key material taken out, and leaves the same but for it. -/
theorem memWrite_withoutKey (a : Offset) (n : Width) (v : Word) (c : CoreState) (p : Params) :
    (memWrite a n v c.withoutKey p).1 = (memWrite a n v c p).1 ∧
      (memWrite a n v c.withoutKey p).2.withoutKey = (memWrite a n v c p).2.withoutKey := by
  have hbusy : c.withoutKey.status.busy = c.status.busy := rfl
  have hkept := c.withoutKey_withoutKey
  have hlocked := c.setLockErr.withoutKey_withoutKey
  unfold memWrite
  rw [hbusy]
  split
  · exact ⟨rfl, hkept⟩
  · split
    · exact ⟨rfl, hkept⟩
    · split
      · exact ⟨rfl, hkept⟩
      · split
        · exact cmdWrite_withoutKey v c p
        · split
          · exact ⟨rfl, hkept⟩
          · split
            · exact ⟨rfl, hlocked⟩
            · exact ⟨rfl, regStore_withoutKey _ v c⟩
    · split
      · exact ⟨rfl, hlocked⟩
      · exact ⟨rfl, CoreState.withoutKey_withoutKey { c with inBuf := _ }⟩
    · split
      · exact ⟨rfl, hlocked⟩
      · exact ⟨rfl, hkept⟩

/-- A transaction answers the same with the key material taken out, and leaves the same but for
it. -/
theorem transact_withoutKey (t : Txn) (c : CoreState) (p : Params := Config.params) :
    (transact t c.withoutKey p).1 = (transact t c p).1 ∧
      (transact t c.withoutKey p).2.withoutKey = (transact t c p).2.withoutKey := by
  cases t with
  | read a n => simp [transact, memRead_withoutKey]
  | write a n v => exact memWrite_withoutKey a n v c p

theorem CoreState.irq_withoutKey (c : CoreState) : c.withoutKey.irq = c.irq := rfl

/-- The checks of CBC_ENC, and so `ent_ready`, look at no key (R66, R204). -/
theorem CoreState.entReady_withoutKey (c : CoreState) (p : Params := Config.params) :
    c.withoutKey.entReady p = c.entReady p := by
  unfold CoreState.entReady
  cases h : c.pending with
  | none => simp [CoreState.withoutKey, h]
  | some q => simp only [CoreState.withoutKey, h, Option.map_some]; rfl

/-- Settles O50: what two cores show is what they show without their key material, and that is
the same core. -/
theorem keyMaterialNeverRead : Obligations.KeyMaterialNeverRead := by
  intro t c d h
  obtain ⟨hresp, hcore⟩ := transact_withoutKey t c
  obtain ⟨hresp', hcore'⟩ := transact_withoutKey t d
  refine ⟨?_, ?_, ?_, ?_⟩
  · rw [← hresp, ← hresp', h]
  · rw [← hcore, ← hcore', h]
  · rw [← c.irq_withoutKey, ← d.irq_withoutKey, h]
  · rw [← c.entReady_withoutKey, ← d.entReady_withoutKey, h]

end Sys2Proof.Machine
end

section
/-! PROOFS. What a step leaves of the schedule (O18), and the pending command in the core's turn
(O4). -/

namespace Sys2Proof.Machine

/-- With the host silent the whole state stands in the core's turn (R117). -/
theorem State.afterMove_of_silent {s : State} (h : s.inputs = []) : s.afterMove = s := by
  unfold State.afterMove
  rw [h, List.tail_nil, ← h]

/-- A step whose move is the core's is the core's turn. -/
theorem step_of_core {s : State} (h : s.nextMove = .core) : step s = coreTurn exec s.afterMove := by
  rw [step, h]
  rfl

/-- The core's turn runs the pending command, out of reset (R112). -/
theorem coreTurn_of_pending {run : Instr → State → Host.Outcome State Fault Refusal} {s : State}
    {p : Pending} {i : Instr} (hrst : s.rstN = true) (hp : s.core.pending = some p)
    (hi : decode p.word = .ok i) : coreTurn run s = run i s := by
  simp [coreTurn, State.pendingWord, hrst, hp, hi]

/-- Settles O4. -/
theorem stepRunsPendingCommand : Obligations.StepRunsPendingCommand := by
  intro s p i rest hrst hp hi
  refine ⟨fun hsilent => ?_, fun hturn => ?_⟩
  · have hmove : s.nextMove = .core := by rw [State.nextMove, hsilent]; rfl
    rw [step_of_core hmove, State.afterMove_of_silent hsilent, coreTurn_of_pending hrst hp hi]
  · have hmove : s.nextMove = .core := by rw [State.nextMove, hturn]; rfl
    have hafter : s.afterMove = { s with inputs := rest } := by rw [State.afterMove, hturn]; rfl
    rw [step_of_core hmove, coreTurn_of_pending (s := s.afterMove) hrst hp hi, hafter]

/-- Two cores with the same schedule memory, ACTIVE and KEY_VALID (R35, R36). -/
structure CoreState.SameSchedule (c d : CoreState) : Prop where
  sched : d.sched = c.sched
  active : d.active = c.active
  keyValid : d.status.keyValid = c.status.keyValid

section SameSchedule

variable {c d : CoreState}

theorem CoreState.SameSchedule.refl (c : CoreState) : c.SameSchedule c := ⟨rfl, rfl, rfl⟩

theorem CoreState.SameSchedule.complete (h : c.SameSchedule d) : c.SameSchedule d.complete :=
  ⟨h.sched, h.active, h.keyValid⟩

theorem CoreState.SameSchedule.fail (h : c.SameSchedule d) (b : Bool) (e : ErrCode) :
    c.SameSchedule (d.fail b e) :=
  ⟨h.sched, h.active, h.keyValid⟩

theorem CoreState.SameSchedule.deliver (h : c.SameSchedule d) (out : List Byte) :
    c.SameSchedule (d.deliver out) :=
  ⟨h.sched, h.active, h.keyValid⟩

theorem CoreState.SameSchedule.setBlk (h : c.SameSchedule d) (q : Quad) :
    c.SameSchedule { d with blk := q } :=
  ⟨h.sched, h.active, h.keyValid⟩

theorem CoreState.SameSchedule.setIv (h : c.SameSchedule d) (q : Quad) :
    c.SameSchedule { d with iv := q } :=
  ⟨h.sched, h.active, h.keyValid⟩

/-- No register's store touches the schedule (R35, R69). -/
theorem regStore_sameSchedule (r : Reg) (v : Word) (c : CoreState) :
    c.SameSchedule (regStore r v c) := by
  cases r <;> exact ⟨rfl, rfl, rfl⟩

/-- No bus transaction touches the schedule (R35, R67, R71). -/
theorem transact_sameSchedule (t : Txn) (c : CoreState) : c.SameSchedule (transact t c).2 := by
  cases t with
  | read a n =>
    rcases memRead_core a n c Config.params with h | ⟨_, _, h⟩ <;> rw [transact, h]
    · exact .refl c
    · exact ⟨rfl, rfl, rfl⟩
  | write a n v =>
    rcases memWrite_core a n v c Config.params_wf with
      h | ⟨_, h⟩ | ⟨_, h⟩ | ⟨r, _, h⟩ | ⟨_, _, _, h⟩ <;> rw [transact, h]
    · exact .refl c
    · exact ⟨rfl, rfl, rfl⟩
    · exact ⟨rfl, rfl, rfl⟩
    · exact regStore_sameSchedule r v c
    · exact ⟨rfl, rfl, rfl⟩

/-- A completion leaves the schedule to the command's updates. -/
theorem State.finish_sameSchedule {s t : State} {b : Bool} {result : Except ErrCode CoreState}
    (hresult : ∀ c, result = .ok c → s.core.SameSchedule c) (h : s.finish b result = .next t) :
    s.core.SameSchedule t.core := by
  rcases s.finish_cases b result with ⟨c, hc, hk⟩ | ⟨e, _, hk⟩ <;> cases hk.symm.trans h
  · exact (hresult c hc).complete
  · exact (CoreState.SameSchedule.refl _).fail b e

/-- Every command but KEY_EXPAND and KEY_CLEAR leaves the schedule as it is (R147). -/
theorem exec_sameSchedule {i : Instr} {s t : State} (hexpand : i ≠ .keyExpand)
    (hclear : i ≠ .keyClear) (h : exec i s = .next t) : s.core.SameSchedule t.core := by
  have hsame := CoreState.SameSchedule.refl s.core
  cases i with
  | keyExpand => exact absurd rfl hexpand
  | keyClear => exact absurd rfl hclear
  | blkEnc =>
    refine State.finish_sameSchedule (fun c hc => ?_) h
    unfold blkEnc at hc
    split at hc <;> cases hc
    exact hsame.setBlk _
  | blkDec =>
    refine State.finish_sameSchedule (fun c hc => ?_) h
    unfold blkDec at hc
    split at hc <;> cases hc
    exact hsame.setBlk _
  | cbcEnc =>
    rcases completeCbcEnc_cases Config.params s with ⟨e, _, hk⟩ | ⟨_, _, _, hk⟩ | ⟨iv, _, _, hk⟩ <;>
      cases hk.symm.trans h
    · exact hsame.fail true e
    · exact hsame
    · exact ((hsame.deliver _).setIv _).complete
  | cbcDec =>
    refine State.finish_sameSchedule (fun c hc => ?_) h
    rcases cbcDecrypt_cases _ s.core Config.params with ⟨e, hk⟩ | ⟨_, _, _, m, _, hk⟩ <;>
      cases hk.symm.trans hc
    exact hsame.deliver m
  | pad =>
    refine State.finish_sameSchedule (fun c hc => ?_) h
    rcases padMessage_cases _ s.core Config.params with hk | ⟨_, _, hk⟩ <;> cases hk.symm.trans hc
    exact hsame.deliver _
  | unpad =>
    refine State.finish_sameSchedule (fun c hc => ?_) h
    rcases unpadMessage_cases _ s.core Config.params with hk | hk | ⟨_, m, _, hk⟩ <;>
      cases hk.symm.trans hc
    exact hsame.deliver m

end SameSchedule

/-- The moves at which S, ACTIVE and KEY_VALID may change (R147, R263). -/
def State.MayChangeSchedule (s : State) : Prop :=
  s.Completes .keyExpand ∨ s.Completes .keyClear ∨
    (∃ draws, s.nextMove = .resetLow draws) ∨ s.nextMove = .resetHigh

/-- The core's turn leaves the schedule as it is, or completes KEY_EXPAND or KEY_CLEAR. -/
theorem coreTurn_sameSchedule {s t : State} (hmove : s.nextMove = .core)
    (h : coreTurn exec s.afterMove = .next t) :
    s.core.SameSchedule t.core ∨ s.MayChangeSchedule := by
  rcases coreTurn_cases exec s.afterMove with ⟨_, hk⟩ | ⟨w, i, hw, hi, hk⟩ | ⟨_, _, _, _, hk⟩
  · cases hk.symm.trans h
    exact .inl (.refl _)
  · by_cases hexpand : i = .keyExpand
    · exact .inr (.inl ⟨hmove, w, hw, hexpand ▸ hi⟩)
    · by_cases hclear : i = .keyClear
      · exact .inr (.inr (.inl ⟨hmove, w, hw, hclear ▸ hi⟩))
      · exact .inl (exec_sameSchedule (s := s.afterMove) hexpand hclear (hk.symm.trans h))
  · cases hk.symm.trans h
    exact .inl ((CoreState.SameSchedule.refl _).fail false _)

/-- Every step leaves the schedule as it is or makes a move that may change it. -/
theorem step_sameSchedule {s t : State} (h : step s = .next t) :
    s.core.SameSchedule t.core ∨ s.MayChangeSchedule := by
  unfold step at h
  cases hmove : s.nextMove with rw [hmove] at h
  | bus x =>
    rcases s.afterMove.applyBus_cases x Config.params with ⟨_, hk⟩ | ⟨_, hk⟩ <;>
      cases hk.symm.trans h
    exact .inl (transact_sameSchedule x s.core)
  | core => exact coreTurn_sameSchedule hmove h
  | entropy offer =>
    cases h
    exact .inl (.refl _)
  | resetLow draws => exact .inr (.inr (.inr (.inl ⟨draws, hmove⟩)))
  | resetHigh => exact .inr (.inr (.inr (.inr hmove)))

/-- Settles O18, move by move (`step_sameSchedule`). -/
theorem onlyKeyCommandsChangeSchedule : Obligations.OnlyKeyCommandsChangeSchedule := by
  intro s t h hchanged
  refine (step_sameSchedule h).resolve_left fun hsame => ?_
  rcases hchanged with hne | hne | hne
  · exact hne hsame.sched
  · exact hne hsame.active
  · exact hne hsame.keyValid

end Sys2Proof.Machine
end

section
/-! PROOFS. A table word decodes from its bytes as the word does (O3). -/

namespace Sys2Proof.Machine

/-- The four bytes of a word decode as the word, and nothing is left over (R63, R90). -/
theorem decodeBytes_laneBytes (v : Word) :
    decodeBytes (laneBytes v 4) = (decode v).map fun i => (i, []) := by
  have hbytes : laneBytes v 4 = [byteLane v 0, byteLane v 1, byteLane v 2, byteLane v 3] := rfl
  have hvalue := leValue_laneBytes_four v
  rw [hbytes] at hvalue ⊢
  rw [decodeBytes, hvalue]
  cases decode v <;> rfl

/-- Settles O3: a word below 2^32 loses nothing as a table word, and its bytes are its lanes. -/
theorem tableWordsDecodeAlike : Obligations.TableWordsDecodeAlike := by
  intro w hw
  unfold decodeTableWord
  rw [Nat.mod_eq_of_lt hw, if_pos hw, decodeBytes_laneBytes]
  cases decode (BitVec.ofNat 32 w) <;> rfl

end Sys2Proof.Machine
end

section
/-! PROOFS. CBC_ENC with an entropy offer and without one (O34, O35). -/

namespace Sys2Proof.Machine

/-- Byte j of word k of the codec is byte `4k + j` (R120). -/
theorem byteLane_codecWord (b : List Byte) (k : Nat) {j : Nat} (hj : j < 4) :
    byteLane (codecWord b k) j = b.getD (4 * k + j) 0#8 := by
  rw [codecWord, ← leValue_four, byteLane_leValue _ hj]
  match j, hj with
  | 0, _ | 1, _ | 2, _ | 3, _ => rfl

/-- Word k of an offer's bytes is its bits `[32k+31 : 32k]` (R66, R120). -/
theorem codecWord_entropyBytes (d : EntropyWord) {k : Nat} (hk : k < 4) :
    codecWord (entropyBytes d) k = d.extractLsb' (32 * k) 32 := by
  apply eq_of_byteLane_eq
  intro j hj
  have hin : 4 * k + j < 16 := by omega
  rw [byteLane_codecWord _ _ hj]
  apply BitVec.eq_of_getLsbD_eq
  intro i hi
  have hword : 8 * j + i < 32 := by omega
  have hpos : 8 * (4 * k + j) + i = 32 * k + (8 * j + i) := by omega
  simp [entropyBytes, byteLane, hin, hi, hword, hpos]

/-- The IV words of a drawn offer (R66, R203). -/
theorem bytesToBlock_entropyBytes (d : EntropyWord) :
    bytesToBlock (entropyBytes d) =
      { w0 := d.extractLsb' 0 32, w1 := d.extractLsb' 32 32, w2 := d.extractLsb' 64 32,
        w3 := d.extractLsb' 96 32 } := by
  simp [bytesToBlock, codecWord_entropyBytes]

/-- A core whose OutBuf and OUT_LEN are those of a delivery holds the output (R38). -/
theorem outputDelivered_of_deliver {before after : CoreState} {out : List Byte}
    (hbuf : after.outBuf = (before.deliver out).outBuf)
    (hlen : after.outLen = (before.deliver out).outLen) : OutputDelivered before after out := by
  rw [CoreState.deliver_outBuf] at hbuf
  refine ⟨hlen, fun k hk => ?_, fun k hk => ?_⟩ <;> rw [hbuf]
  · rw [← Nat.zero_add k, Memory.read_write_inside hk, Nat.zero_add]
    rfl
  · exact Memory.read_write_outside (.inr (by omega))

/-- The checks of CBC_ENC pass exactly with a schedule and with both lengths in bounds (R204). -/
theorem cbcEncCheck_eq_none_iff {ops : Operands} {p : Params} :
    cbcEncCheck ops p = none ↔ ops.keyValid = true ∧ ops.inLen.toNat ≤ p.inBufBytes ∧
      32 + 16 * (ops.inLen.toNat / 16) ≤ p.outBufBytes := by
  refine ⟨cbcEncCheck_none, fun ⟨hkey, hin, hout⟩ => ?_⟩
  rw [cbcEncCheck, if_neg (not_not.mpr hkey), if_neg (by omega), if_neg (by omega)]

/-- With IV_MODE = 0 the IV is the offer on the port, if one stands there (R203). -/
theorem selectIv_of_draw {ops : Operands} (hmode : ops.ctrl.ivMode = false)
    (offer : Option EntropyWord) : selectIv ops offer = offer.map entropyBytes := by
  simp [selectIv, hmode]

/-- A draw takes the offer off the port (R66; log entry 5). -/
theorem offerAfter_of_draw {ops : Operands} (hmode : ops.ctrl.ivMode = false)
    (offer : Option EntropyWord) : offerAfter ops offer = none := by
  simp [offerAfter, hmode]

/-- CBC_ENC whose checks pass completes with the IV selected (R203, R204). -/
theorem exec_cbcEnc_of_iv {s : State} {iv : List Byte}
    (hcheck : cbcEncCheck s.core.operands = none)
    (hiv : selectIv s.core.operands s.entropy = some iv) :
    exec .cbcEnc s = .next { s with
      entropy := offerAfter s.core.operands s.entropy
      core := (cbcEncrypt s.core.operands iv s.core).complete } := by
  simp [exec, execCbcEnc, completeCbcEnc, hcheck, hiv]

/-- CBC_ENC whose checks pass waits for its IV (R112, R267; log entry 6). -/
theorem exec_cbcEnc_of_no_iv {s : State} (hcheck : cbcEncCheck s.core.operands = none)
    (hiv : selectIv s.core.operands s.entropy = none) : exec .cbcEnc s = .next s := by
  simp [exec, execCbcEnc, completeCbcEnc, hcheck, hiv]

/-- `ent_ready` while a CBC_ENC is pending (R66). -/
theorem entReady_of_cbcEnc {c : CoreState} {q : Pending} (hq : c.pending = some q)
    (hword : decode q.word = .ok .cbcEnc) :
    c.entReady = ((cbcEncCheck c.operands).isNone && !c.operands.ctrl.ivMode) := by
  rw [CoreState.operands_of_pending hq]
  simp [CoreState.entReady, hq, hword]

/-- Settles O34: the checks pass, the offer is the IV, and its words are its four quarters. -/
theorem cbcEncWithDrawnIv : Obligations.CbcEncWithDrawnIv := by
  intro s d hkey hin hout hmode hoffer
  have hiv : selectIv s.core.operands s.entropy = some (entropyBytes d) := by
    rw [selectIv_of_draw hmode, hoffer]
    rfl
  refine ⟨_, exec_cbcEnc_of_iv (cbcEncCheck_eq_none_iff.mpr ⟨hkey, hin, hout⟩) hiv,
    outputDelivered_of_deliver rfl rfl, ?_⟩
  rw [offerAfter_of_draw hmode, ← bytesToBlock_entropyBytes]
  rfl

/-- Settles O35: the checks pass and there is no IV to select. -/
theorem cbcEncWaitsForEntropy : Obligations.CbcEncWaitsForEntropy := by
  intro s hkey hin hout hmode hoffer
  have hcheck : cbcEncCheck s.core.operands = none :=
    cbcEncCheck_eq_none_iff.mpr ⟨hkey, hin, hout⟩
  have hiv : selectIv s.core.operands s.entropy = none := by
    rw [selectIv_of_draw hmode, hoffer]
    rfl
  refine ⟨exec_cbcEnc_of_no_iv hcheck hiv, fun q hq hword => ?_⟩
  rw [entReady_of_cbcEnc hq hword, hcheck, hmode]
  rfl

end Sys2Proof.Machine
end

section
/-! PROOFS. The accesses the bus refuses (O39 to O42), and what a read leaves of the core (O44). -/

namespace Sys2Proof.Machine

section Refused

variable {a : Offset} {n : Width}

theorem memRead_misaligned (h : a.toNat % widthBytes n ≠ 0) (c : CoreState) :
    memRead a n c = (errorResponse, c) :=
  if_pos h

theorem memWrite_misaligned (h : a.toNat % widthBytes n ≠ 0) (v : Word) (c : CoreState) :
    memWrite a n v c = (errorResponse, c) :=
  if_pos h

/-- The two gaps of the map (R62, R68). -/
theorem regionAt_reserved (h : (0x0060 ≤ a.toNat ∧ a.toNat ≤ 0x0FFF) ∨ 0x3000 ≤ a.toNat) :
    regionAt a = .reserved := by
  rw [regionAt_default, if_neg (by omega)]
  rcases h with ⟨_, hgap⟩ | htop
  · rw [if_pos (by omega)]
  · rw [if_neg (by omega), if_neg (by omega), if_neg (by omega)]

theorem memRead_reserved (h : regionAt a = .reserved) (n : Width) (c : CoreState) :
    memRead a n c = (errorResponse, c) := by
  by_cases haligned : a.toNat % widthBytes n ≠ 0
  · exact memRead_misaligned haligned c
  · rw [memRead, if_neg haligned, h]

theorem memWrite_reserved (h : regionAt a = .reserved) (n : Width) (v : Word) (c : CoreState) :
    memWrite a n v c = (errorResponse, c) := by
  by_cases haligned : a.toNat % widthBytes n ≠ 0
  · exact memWrite_misaligned haligned v c
  · rw [memWrite, if_neg haligned, h]

/-- Every offset below `0x0060` lies in a register (R23, R62). -/
theorem exists_regionAt_reg (h : a.toNat < 0x0060) : ∃ r, regionAt a = .reg r := by
  obtain ⟨r, hr⟩ := exists_regAt (a.toNat / 4) (by omega)
  exact ⟨r, by rw [regionAt_default, if_pos h, hr]⟩

theorem memRead_narrow {r : Reg} (h : regionAt a = .reg r) (hn : n ≠ .b4) (c : CoreState) :
    memRead a n c = (errorResponse, c) := by
  by_cases haligned : a.toNat % widthBytes n ≠ 0
  · exact memRead_misaligned haligned c
  · rw [memRead, if_neg haligned, h]
    exact if_pos hn

theorem memWrite_narrow {r : Reg} (h : regionAt a = .reg r) (hn : n ≠ .b4) (v : Word)
    (c : CoreState) : memWrite a n v c = (errorResponse, c) := by
  by_cases haligned : a.toNat % widthBytes n ≠ 0
  · exact memWrite_misaligned haligned v c
  · rw [memWrite, if_neg haligned, h]
    exact if_pos hn

/-- An aligned write of OutBuf is refused, busy or not; LOCKERR tells the two apart (R69, R71). -/
theorem memWrite_outBuf (hlo : 0x2000 ≤ a.toNat) (hhi : a.toNat < 0x3000)
    (haligned : a.toNat % widthBytes n = 0) (v : Word) (c : CoreState) :
    memWrite a n v c = (errorResponse, if c.status.busy then c.setLockErr else c) := by
  rw [memWrite, if_neg (not_not.mpr haligned), regionAt_outBuf_default hlo hhi]
  cases c.status.busy <;> rfl

end Refused

@[simp] theorem memRead_cmd (c : CoreState) : memRead 0x0008#14 .b4 c = (okayWith 0#32, c) :=
  memRead_word_unlocked (k := 2) rfl (Bool.and_false _)

@[simp] theorem memWrite_outLen (v : Word) (c : CoreState) :
    memWrite 0x0018#14 .b4 v c = (errorResponse, c) :=
  memWrite_word (k := 6) rfl (by decide) v c

/-- A KEY read answers 0 while idle and is locked while busy (R32, R69, R114). -/
theorem memRead_key {k : Nat} (hk : k < 8) (c : CoreState) :
    memRead (BitVec.ofNat 14 (0x0020 + 4 * k)) .b4 c =
      if c.status.busy then (errorResponse, c.setLockErr) else (okayWith 0#32, c) := by
  have hoffset : 0x0020 + 4 * k = 4 * (8 + k) := by omega
  rw [hoffset, memRead_word (regAt_key ⟨k, hk⟩)]
  simp [Reg.readLocked, regRead]

/-- Settles O39. -/
theorem misalignedAccessRefused : Obligations.MisalignedAccessRefused :=
  fun _ _ v c h => ⟨memRead_misaligned h c, memWrite_misaligned h v c⟩

/-- Settles O40. -/
theorem reservedOffsetRefused : Obligations.ReservedOffsetRefused := fun _ n v c h =>
  ⟨memRead_reserved (regionAt_reserved h) n c, memWrite_reserved (regionAt_reserved h) n v c⟩

/-- Settles O41: such an offset lies in a register. -/
theorem narrowRegisterAccessRefused : Obligations.NarrowRegisterAccessRefused := by
  intro a n v c h hn
  obtain ⟨r, hr⟩ := exists_regionAt_reg h
  exact ⟨memRead_narrow hr hn c, memWrite_narrow hr hn v c⟩

/-- Settles O42, target by target. -/
theorem readOnlyAndWriteOnlyTargets : Obligations.ReadOnlyAndWriteOnlyTargets := by
  intro v c
  refine ⟨⟨memWrite_id v c, memWrite_outLen v c, memWrite_active v c⟩,
    fun a n hlo hhi haligned => memWrite_outBuf hlo hhi haligned v c,
    fun hidle => ⟨memRead_cmd c, fun k hk => ?_⟩, fun hbusy k hk => ?_⟩
  · rw [memRead_key hk, hidle]
    rfl
  · rw [memRead_key hk, hbusy]
    rfl

/-- Settles O44: a read leaves the core, or is refused while busy and sets LOCKERR
(`memRead_core`). -/
theorem readsChangeOnlyLockErr : Obligations.ReadsChangeOnlyLockErr := by
  intro a n c
  rcases memRead_core a n c Config.params with hsame | ⟨hbusy, hrefused, hlocked⟩
  · exact ⟨fun _ => hsame, fun _ => hsame, .inl hsame⟩
  · refine ⟨fun hidle => ?_, fun hokay => ?_, .inr hlocked⟩
    · rw [hbusy] at hidle
      cases hidle
    · rw [hrefused] at hokay
      cases hokay

end Sys2Proof.Machine
end

section
/-! PROOFS. The moves of the bus and of the entropy source (O6). -/

namespace Sys2Proof.Machine

/-- A step makes the listed move, which is used up (log entry 3). -/
theorem step_of_inputs {s : State} {i : Input} {rest : List Input} (h : s.inputs = i :: rest) :
    step s = applyInput Config.params exec i { s with inputs := rest } := by
  have hmove : s.nextMove = i := by rw [State.nextMove, h]; rfl
  have hafter : s.afterMove = { s with inputs := rest } := by rw [State.afterMove, h]; rfl
  rw [step, hmove, hafter]

/-- Settles O6: out of reset a transaction is not refused, and a move of the entropy source drives
the port. -/
theorem busAndEntropyMoves : Obligations.BusAndEntropyMoves := by
  refine fun s rest => ⟨fun t hrst hbus => ?_, fun offer hentropy => step_of_inputs hentropy⟩
  rw [step_of_inputs hbus]
  exact if_pos hrst

end Sys2Proof.Machine
end

section
/-! PROOFS. The decoder against the encoder (O2), the words of R91 and R92 (O1), and the completion of
a word that is no command (O10). -/

namespace Sys2Proof.Machine

/-- A command word is its RSV field above its OP field (R90). -/
theorem rsv_append_op (w : Word) : w.extractLsb' 4 28 ++ w.extractLsb' 0 4 = w :=
  (BitVec.extractLsb'_append_extractLsb'_eq_extractLsb' (x := w) (start₁ := 0) (start₂ := 4)
    rfl).trans BitVec.extractLsb'_eq_self

/-- A word of OP alone, with RSV = 0, is refused if its OP is reserved (R92). -/
theorem decode_of_opReserved : ∀ op : BitVec 4, op = 0#4 ∨ 9 ≤ op.toNat →
    decode (0#28 ++ op) = .error .opReserved := by
  decide

/-- Every command's word decodes to the command (R94). -/
@[simp] theorem decode_encode (i : Instr) : decode (encode i) = .ok i := by
  cases i <;> rfl

/-- A word that decodes has RSV = 0 and its command's OP. -/
theorem fields_of_decode {w : Word} {i : Instr} (h : decode w = .ok i) :
    w.extractLsb' 4 28 = 0#28 ∧ w.extractLsb' 0 4 = i.opcode := by
  simp only [decode] at h
  split at h
  · cases h
  · rename_i hrsv
    refine ⟨not_not.mp hrsv, BitVec.eq_of_toNat_eq ?_⟩
    split at h <;> cases h <;> assumption

/-- Only a command's own word decodes to it (R94). -/
theorem encode_of_decode {w : Word} {i : Instr} (h : decode w = .ok i) : encode i = w := by
  obtain ⟨hrsv, hop⟩ := fields_of_decode h
  rw [encode, ← hrsv, ← hop, rsv_append_op]

theorem decode_eq_ok_iff {w : Word} {i : Instr} : decode w = .ok i ↔ encode i = w :=
  ⟨encode_of_decode, fun h => h ▸ decode_encode i⟩

/-- Every assigned OP number is some command's (R91). -/
theorem exists_opcode_eq (op : BitVec 4) (hlo : op ≠ 0#4) (hhi : op.toNat < 9) :
    ∃ i : Instr, i.opcode = op := by
  have htable : ∀ op : BitVec 4, op ≠ 0#4 → op.toNat < 9 →
      ∃ i ∈ [Instr.keyExpand, .keyClear, .blkEnc, .blkDec, .cbcEnc, .cbcDec, .pad, .unpad],
        i.opcode = op := by
    decide
  obtain ⟨i, _, hi⟩ := htable op hlo hhi
  exact ⟨i, hi⟩

/-- The fields of a command's word are in range (R92). -/
theorem opcode_assigned (i : Instr) : ¬ (i.opcode = 0#4 ∨ 9 ≤ i.opcode.toNat) := by
  cases i <;> decide

/-- A word is refused exactly if a field of it is out of range (R92). -/
theorem decode_error_iff (w : Word) : (∃ e, decode w = .error e) ↔
    w.extractLsb' 4 28 ≠ 0#28 ∨ w.extractLsb' 0 4 = 0#4 ∨ 9 ≤ (w.extractLsb' 0 4).toNat := by
  constructor
  · rintro ⟨e, he⟩
    by_contra hlegal
    push Not at hlegal
    obtain ⟨hrsv, hlo, hhi⟩ := hlegal
    obtain ⟨i, hi⟩ := exists_opcode_eq _ hlo hhi
    have hword : encode i = w := by rw [encode, hi, ← hrsv, rsv_append_op]
    rw [decode_eq_ok_iff.mpr hword] at he
    cases he
  · intro hillegal
    cases h : decode w with
    | error e => exact ⟨e, rfl⟩
    | ok i =>
      obtain ⟨hrsv, hop⟩ := fields_of_decode h
      rw [hop] at hillegal
      exact absurd (hillegal.resolve_left (not_not.mpr hrsv)) (opcode_assigned i)

/-- Settles O2, from the two directions between decoder and encoder and the exact set of refused
words. -/
theorem decodeEncodeAgree : Obligations.DecodeEncodeAgree :=
  fun w => ⟨fun _ => decode_eq_ok_iff, decode_error_iff w⟩

/-- Settles O1: the eight words are the encodings, and the others hold the reserved OP values. -/
theorem commandWordsDecode : Obligations.CommandWordsDecode :=
  ⟨decode_encode .keyExpand, decode_encode .keyClear, decode_encode .blkEnc, decode_encode .blkDec,
    decode_encode .cbcEnc, decode_encode .cbcDec, decode_encode .pad, decode_encode .unpad,
    decode_of_opReserved 0x0#4 (by decide), decode_of_opReserved 0x9#4 (by decide),
    decode_of_opReserved 0xA#4 (by decide), decode_of_opReserved 0xB#4 (by decide),
    decode_of_opReserved 0xC#4 (by decide), decode_of_opReserved 0xD#4 (by decide),
    decode_of_opReserved 0xE#4 (by decide), decode_of_opReserved 0xF#4 (by decide)⟩

/-- The core's turn completes a pending word that is no command with ILLEGAL_COMMAND (R92, R227). -/
theorem coreTurn_of_illegal {run : Instr → State → Host.Outcome State Fault Refusal} {s : State}
    {p : Pending} {e : Illegal} (hrst : s.rstN = true) (hp : s.core.pending = some p)
    (he : decode p.word = .error e) :
    coreTurn run s = .next { s with core := s.core.fail false .illegalCommand } := by
  simp [coreTurn, State.pendingWord, hrst, hp, he, State.finishIllegal]

/-- Settles O10: the word is refused (`decode_error_iff`), and only STATUS and PENDING change. -/
theorem illegalWordCompletes : Obligations.IllegalWordCompletes := by
  intro s p hrst hp hmove hillegal
  obtain ⟨e, he⟩ := (decode_error_iff p.word).mpr hillegal
  rw [step_of_core hmove, coreTurn_of_illegal (s := s.afterMove) hrst hp he]
  rfl

end Sys2Proof.Machine
end

section
/-! PROOFS. What each command leaves unchanged (O60): a command's updates, written out once, show its
targets, and every answer of a command is a failure, a wait or the completion of those updates. -/

namespace Sys2Proof.Machine

/-- The buffer-producing commands (R17), whose failure clears OUT_LEN (R228). -/
def producesOutput : Instr → Bool
  | .cbcEnc | .cbcDec | .pad | .unpad => true
  | .keyExpand | .keyClear | .blkEnc | .blkDec => false

/-- The updates that each command can make when it succeeds: its targets in R93 and no others. -/
inductive CoreState.UpdatedBy (c : CoreState) : Instr → CoreState → Prop where
  | keyExpand (sched : List Word) (active : Active) : c.UpdatedBy .keyExpand
      { c with sched := sched, active := active, status := { c.status with keyValid := true } }
  | keyClear : c.UpdatedBy .keyClear (Machine.keyClear c)
  | blkEnc (q : Quad) : c.UpdatedBy .blkEnc { c with blk := q }
  | blkDec (q : Quad) : c.UpdatedBy .blkDec { c with blk := q }
  | cbcEnc (out : List Byte) (q : Quad) : c.UpdatedBy .cbcEnc { c.deliver out with iv := q }
  | cbcDec (out : List Byte) : c.UpdatedBy .cbcDec (c.deliver out)
  | pad (out : List Byte) : c.UpdatedBy .pad (c.deliver out)
  | unpad (out : List Byte) : c.UpdatedBy .unpad (c.deliver out)

/-- The next states that a command can answer (R112, R228, R267). -/
inductive State.AnsweredBy (s : State) (i : Instr) : State → Prop where
  | failed (e : ErrCode) : s.AnsweredBy i { s with core := s.core.fail (producesOutput i) e }
  | waiting (hcbc : i = .cbcEnc) : s.AnsweredBy i s
  | completed {c : CoreState} {offer : Option EntropyWord} (hcore : s.core.UpdatedBy i c)
      (hoffer : i ≠ .cbcEnc → offer = s.entropy) :
      s.AnsweredBy i { s with entropy := offer, core := c.complete }

section Updates

variable {ops : Operands} {c d : CoreState}

theorem keyExpand_updatedBy (h : keyExpand ops c = .ok d) : c.UpdatedBy .keyExpand d := by
  rcases keyExpand_cases ops c Config.params with ⟨_, hk⟩ | ⟨_, _, hk⟩ | ⟨_, _, hk⟩ <;>
    cases hk.symm.trans h
  exact .keyExpand _ _

theorem blkEnc_updatedBy (h : blkEnc ops c = .ok d) : c.UpdatedBy .blkEnc d := by
  unfold blkEnc at h
  split at h <;> cases h
  exact .blkEnc _

theorem blkDec_updatedBy (h : blkDec ops c = .ok d) : c.UpdatedBy .blkDec d := by
  unfold blkDec at h
  split at h <;> cases h
  exact .blkDec _

theorem cbcDecrypt_updatedBy (h : cbcDecrypt ops c = .ok d) : c.UpdatedBy .cbcDec d := by
  rcases cbcDecrypt_cases ops c Config.params with ⟨_, hk⟩ | ⟨_, _, _, m, _, hk⟩ <;>
    cases hk.symm.trans h
  exact .cbcDec m

theorem padMessage_updatedBy (h : padMessage ops c = .ok d) : c.UpdatedBy .pad d := by
  rcases padMessage_cases ops c Config.params with hk | ⟨_, _, hk⟩ <;> cases hk.symm.trans h
  exact .pad _

theorem unpadMessage_updatedBy (h : unpadMessage ops c = .ok d) : c.UpdatedBy .unpad d := by
  rcases unpadMessage_cases ops c Config.params with hk | hk | ⟨_, m, _, hk⟩ <;>
    cases hk.symm.trans h
  exact .unpad m

end Updates

section Answers

variable {i : Instr} {s t : State}

/-- A completion answers with the command's updates or with its error. -/
theorem State.finish_answeredBy {result : Except ErrCode CoreState}
    (hresult : ∀ c, result = .ok c → s.core.UpdatedBy i c)
    (h : s.finish (producesOutput i) result = .next t) : s.AnsweredBy i t := by
  rcases s.finish_cases (producesOutput i) result with ⟨c, hc, hk⟩ | ⟨e, _, hk⟩ <;>
    cases hk.symm.trans h
  · exact .completed (hresult c hc) fun _ => rfl
  · exact .failed e

theorem execCbcEnc_answeredBy (h : execCbcEnc s = .next t) : s.AnsweredBy .cbcEnc t := by
  rcases completeCbcEnc_cases Config.params s with ⟨e, _, hk⟩ | ⟨_, _, _, hk⟩ | ⟨iv, _, _, hk⟩ <;>
    cases hk.symm.trans h
  · exact .failed e
  · exact .waiting rfl
  · exact .completed (.cbcEnc _ _) fun hne => absurd rfl hne

/-- Everything a command can answer (R93, R112). -/
theorem exec_answeredBy (h : exec i s = .next t) : s.AnsweredBy i t := by
  cases i with
  | keyExpand => exact State.finish_answeredBy (fun _ => keyExpand_updatedBy) h
  | keyClear =>
    exact State.finish_answeredBy (result := .ok (keyClear s.core))
      (fun _ hc => Except.ok.inj hc ▸ .keyClear) h
  | blkEnc => exact State.finish_answeredBy (fun _ => blkEnc_updatedBy) h
  | blkDec => exact State.finish_answeredBy (fun _ => blkDec_updatedBy) h
  | cbcEnc => exact execCbcEnc_answeredBy h
  | cbcDec => exact State.finish_answeredBy (fun _ => cbcDecrypt_updatedBy) h
  | pad => exact State.finish_answeredBy (fun _ => padMessage_updatedBy) h
  | unpad => exact State.finish_answeredBy (fun _ => unpadMessage_updatedBy) h

end Answers

section Targets

variable {i : Instr} {c d : CoreState}

/-- What is no command's target (R93). -/
theorem CoreState.UpdatedBy.settings (h : c.UpdatedBy i d) :
    d.ctrl = c.ctrl ∧ d.doneIe = c.doneIe ∧ d.inLen = c.inLen ∧
      d.status.lockErr = c.status.lockErr ∧ d.inBuf = c.inBuf := by
  cases h <;> exact ⟨rfl, rfl, rfl, rfl, rfl⟩

theorem CoreState.UpdatedBy.key (h : c.UpdatedBy i d) (hclear : i ≠ .keyClear) :
    d.key = c.key := by
  cases h with
  | keyClear => exact absurd rfl hclear
  | _ => rfl

theorem CoreState.UpdatedBy.blk (h : c.UpdatedBy i d) (henc : i ≠ .blkEnc) (hdec : i ≠ .blkDec) :
    d.blk = c.blk := by
  cases h with
  | blkEnc => exact absurd rfl henc
  | blkDec => exact absurd rfl hdec
  | _ => rfl

theorem CoreState.UpdatedBy.iv (h : c.UpdatedBy i d) (hcbc : i ≠ .cbcEnc) : d.iv = c.iv := by
  cases h with
  | cbcEnc => exact absurd rfl hcbc
  | _ => rfl

theorem CoreState.UpdatedBy.output (h : c.UpdatedBy i d) (hout : producesOutput i = false) :
    d.outLen = c.outLen ∧ d.outBuf = c.outBuf := by
  cases h with
  | cbcEnc | cbcDec | pad | unpad => cases hout
  | keyExpand | keyClear | blkEnc | blkDec => exact ⟨rfl, rfl⟩

theorem producesOutput_eq_false (hcbcEnc : i ≠ .cbcEnc) (hcbcDec : i ≠ .cbcDec) (hpad : i ≠ .pad)
    (hunpad : i ≠ .unpad) : producesOutput i = false := by
  cases i with
  | cbcEnc | cbcDec | pad | unpad => contradiction
  | keyExpand | keyClear | blkEnc | blkDec => rfl

end Targets

/-- Settles O60: a failure changes STATUS, PENDING and a producer's OUT_LEN, a wait nothing, and a
completion what the command updates; the schedule is `exec_sameSchedule`'s. -/
theorem commandsTouchOnlyTheirTargets : Obligations.CommandsTouchOnlyTheirTargets := by
  intro i s t h
  have hsched : i ≠ .keyExpand → i ≠ .keyClear → t.core.sched = s.core.sched ∧
      t.core.active = s.core.active ∧ t.core.status.keyValid = s.core.status.keyValid :=
    fun hexpand hclear =>
      have hsame := exec_sameSchedule hexpand hclear h
      ⟨hsame.sched, hsame.active, hsame.keyValid⟩
  cases exec_answeredBy h with
  | failed e =>
    refine ⟨⟨rfl, rfl, rfl, rfl, fun _ => rfl, rfl, rfl, rfl⟩, fun _ => rfl, hsched,
      fun _ _ => rfl, fun _ => ⟨rfl, rfl⟩, fun hcbcEnc hcbcDec hpad hunpad => ⟨?_, fun _ => rfl⟩⟩
    rw [CoreState.fail_outLen, producesOutput_eq_false hcbcEnc hcbcDec hpad hunpad]
    rfl
  | waiting _ =>
    exact ⟨⟨rfl, rfl, rfl, rfl, fun _ => rfl, rfl, rfl, rfl⟩, fun _ => rfl, hsched,
      fun _ _ => rfl, fun _ => ⟨rfl, rfl⟩, fun _ _ _ _ => ⟨rfl, fun _ => rfl⟩⟩
  | completed hcore hoffer =>
    obtain ⟨hctrl, hdoneIe, hinLen, hlockErr, hinBuf⟩ := hcore.settings
    refine ⟨⟨hctrl, hdoneIe, hinLen, hlockErr, fun k => congrArg (Memory.read · k) hinBuf, rfl, rfl,
      rfl⟩, hcore.key, hsched, hcore.blk, fun hcbc => ⟨hcore.iv hcbc, hoffer hcbc⟩,
      fun hcbcEnc hcbcDec hpad hunpad => ?_⟩
    obtain ⟨houtLen, houtBuf⟩ :=
      hcore.output (producesOutput_eq_false hcbcEnc hcbcDec hpad hunpad)
    exact ⟨houtLen, fun k => congrArg (Memory.read · k) houtBuf⟩

end Sys2Proof.Machine
end

section
/-! PROOFS. The bytes of a block and the words of the codec: the round trip (O19) and the xor of two
blocks (O21), both read byte by byte through `byteLane`. -/

namespace Sys2Proof.Machine

/-- Word i of the codec, by its index (R120). -/
theorem quadGet_bytesToBlock (b : List Byte) (i : Fin 4) :
    quadGet (bytesToBlock b) i = codecWord b i.val := by
  fin_cases i <;> rfl

/-- Equal words make equal quads. -/
theorem Quad.eq_of_quadGet_eq {p q : Quad} (h : ∀ i, quadGet p i = quadGet q i) : p = q := by
  obtain ⟨p₀, p₁, p₂, p₃⟩ := p
  obtain ⟨q₀, q₁, q₂, q₃⟩ := q
  cases h 0
  cases h 1
  cases h 2
  cases h 3
  rfl

/-- Byte `4i + j` of a block is byte j of its word i (R121). -/
theorem blockToBytes_getD (q : Quad) (i j : Fin 4) :
    (blockToBytes q).getD (4 * i.val + j.val) 0#8 = byteLane (quadGet q i) j.val := by
  fin_cases i <;> fin_cases j <;> rfl

/-- The bytes of the words of a block are the block (R122). -/
theorem blockToBytes_bytesToBlock {b : List Byte} (hb : b.length = 16) :
    blockToBytes (bytesToBlock b) = b := by
  apply List.ext_getElem
  · rw [blockToBytes_length, hb]
  · intro k hk hkb
    have hword : k / 4 < 4 := by omega
    have hlane : k % 4 < 4 := by omega
    have hbyte := blockToBytes_getD (bytesToBlock b) ⟨k / 4, hword⟩ ⟨k % 4, hlane⟩
    rwa [quadGet_bytesToBlock, byteLane_codecWord b _ hlane, Nat.div_add_mod,
      List.getD_eq_getElem _ _ hk, List.getD_eq_getElem _ _ hkb] at hbyte

/-- The words of the bytes of four words are the words (R122). -/
theorem bytesToBlock_blockToBytes (q : Quad) : bytesToBlock (blockToBytes q) = q := by
  apply Quad.eq_of_quadGet_eq
  intro i
  rw [quadGet_bytesToBlock]
  apply eq_of_byteLane_eq
  intro j hj
  rw [byteLane_codecWord _ _ hj]
  exact blockToBytes_getD q i ⟨j, hj⟩

/-- Settles O19: both round trips, and the words of the example. -/
theorem codecRoundTrip : Obligations.CodecRoundTrip :=
  ⟨fun _ => blockToBytes_bytesToBlock, bytesToBlock_blockToBytes, by decide⟩

theorem byteLane_xor (v w : Word) (j : Nat) :
    byteLane (v ^^^ w) j = byteLane v j ^^^ byteLane w j :=
  BitVec.extractLsb'_xor

/-- Byte k of an xor, inside both operands (R127). -/
theorem xorBytes_getD {x y : List Byte} {k : Nat} (hx : k < x.length) (hy : k < y.length) :
    (xorBytes x y).getD k 0#8 = x.getD k 0#8 ^^^ y.getD k 0#8 := by
  have hxor : k < (xorBytes x y).length := by
    rw [xorBytes_length]
    exact lt_min hx hy
  rw [List.getD_eq_getElem _ _ hxor, List.getD_eq_getElem _ _ hx, List.getD_eq_getElem _ _ hy]
  exact List.getElem_zipWith

/-- Word k of the xor of two blocks is the xor of their words k (R127). -/
theorem codecWord_xorBytes {x y : List Byte} {k : Nat} (hx : 4 * k + 4 ≤ x.length)
    (hy : 4 * k + 4 ≤ y.length) :
    codecWord (xorBytes x y) k = codecWord x k ^^^ codecWord y k := by
  apply eq_of_byteLane_eq
  intro j hj
  rw [byteLane_xor, byteLane_codecWord _ _ hj, byteLane_codecWord _ _ hj,
    byteLane_codecWord _ _ hj, xorBytes_getD (by omega) (by omega)]

/-- Settles O21: byte by byte, and so word by word. -/
theorem blockXorOnWords : Obligations.BlockXorOnWords := by
  intro x y hx hy
  have hword : ∀ k < 4, codecWord (xorBytes x y) k = codecWord x k ^^^ codecWord y k :=
    fun k hk => codecWord_xorBytes (by omega) (by omega)
  refine ⟨by rw [xorBytes_length, hx, hy, min_self],
    fun k hk => xorBytes_getD (by omega) (by omega), ?_⟩
  simp [bytesToBlock, hword]

end Sys2Proof.Machine
end

section
/-! PROOFS. The rotations (O20): the formula of R125 is the library's rotation, and each law follows
from where a rotation puts each bit. -/

namespace Sys2Proof.Machine

theorem rotl_of_mod_eq_zero (x : Word) {n : Nat} (h : n % 32 = 0) : rotl x n = x :=
  if_pos h

theorem rotl_of_mod_ne_zero (x : Word) {n : Nat} (h : n % 32 ≠ 0) :
    rotl x n = x <<< (n % 32) ||| x >>> (32 - n % 32) :=
  if_neg h

theorem rotr_of_mod_eq_zero (x : Word) {n : Nat} (h : n % 32 = 0) : rotr x n = x :=
  if_pos h

theorem rotr_of_mod_ne_zero (x : Word) {n : Nat} (h : n % 32 ≠ 0) :
    rotr x n = x >>> (n % 32) ||| x <<< (32 - n % 32) :=
  if_neg h

/-- ROTL is the rotation of bit vectors (R12, R125). -/
theorem rotl_eq_rotateLeft (x : Word) (n : Nat) : rotl x n = x.rotateLeft n := by
  by_cases h : n % 32 = 0
  · simp [rotl_of_mod_eq_zero x h, BitVec.rotateLeft_def, h, BitVec.ushiftRight_eq_zero]
  · rw [rotl_of_mod_ne_zero x h, BitVec.rotateLeft_def]

/-- ROTR is the rotation of bit vectors (R12, R125). -/
theorem rotr_eq_rotateRight (x : Word) (n : Nat) : rotr x n = x.rotateRight n := by
  by_cases h : n % 32 = 0
  · simp [rotr_of_mod_eq_zero x h, BitVec.rotateRight_def, h]
  · rw [rotr_of_mod_ne_zero x h, BitVec.rotateRight_def]

/-- ROTL moves bit k up by n, around the end of the word (R125). -/
theorem rotl_getLsbD (x : Word) (n : Nat) {k : Nat} (hk : k < 32) :
    (rotl x n).getLsbD ((k + n) % 32) = x.getLsbD k := by
  rw [rotl_eq_rotateLeft, BitVec.getLsbD_rotateLeft]
  by_cases hwrap : (k + n) % 32 < n % 32
  · have hsource : 32 - n % 32 + (k + n) % 32 = k := by omega
    simp [hwrap, hsource]
  · have hsource : (k + n) % 32 - n % 32 = k := by omega
    have htarget : (k + n) % 32 < 32 := Nat.mod_lt _ (by decide)
    simp [hwrap, hsource, htarget]

/-- ROTR brings to bit k the bit n above it, around the end of the word (R125). -/
theorem rotr_getLsbD (x : Word) (n : Nat) {k : Nat} (hk : k < 32) :
    (rotr x n).getLsbD k = x.getLsbD ((k + n) % 32) := by
  rw [rotr_eq_rotateRight, BitVec.getLsbD_rotateRight]
  by_cases hwrap : k < 32 - n % 32
  · have hsource : n % 32 + k = (k + n) % 32 := by omega
    simp [hwrap, hsource]
  · have hsource : k - (32 - n % 32) = (k + n) % 32 := by omega
    simp [hwrap, hsource, hk]

/-- ROTR undoes ROTL (R125). -/
theorem rotr_rotl (x : Word) (n : Nat) : rotr (rotl x n) n = x := by
  apply BitVec.eq_of_getLsbD_eq
  intro k hk
  rw [rotr_getLsbD _ _ hk, rotl_getLsbD _ _ hk]

/-- ROTL undoes ROTR: bit k comes from the bit that is n below it around the end. -/
theorem rotl_rotr (x : Word) (n : Nat) : rotl (rotr x n) n = x := by
  apply BitVec.eq_of_getLsbD_eq
  intro k hk
  obtain ⟨j, hj, rfl⟩ : ∃ j < 32, (j + n) % 32 = k :=
    ⟨(k + (32 - n % 32)) % 32, Nat.mod_lt _ (by decide), by omega⟩
  rw [rotl_getLsbD _ _ hj, rotr_getLsbD _ _ hj]

theorem rotl_mod (x : Word) (n : Nat) : rotl x (n % 32) = rotl x n := by
  rw [rotl, rotl, Nat.mod_mod]

theorem rotr_mod (x : Word) (n : Nat) : rotr x (n % 32) = rotr x n := by
  rw [rotr, rotr, Nat.mod_mod]

/-- Settles O20: the inverses and the bit map from where each bit goes, the rest from the formula. -/
theorem rotationLaws : Obligations.RotationLaws :=
  fun x n => ⟨rotr_rotl x n, rotl_rotr x n, (rotl_mod x n).symm, (rotr_mod x n).symm,
    fun h => ⟨rotl_of_mod_eq_zero x h, rotr_of_mod_eq_zero x h⟩,
    fun h => ⟨rotl_of_mod_ne_zero x h, rotr_of_mod_ne_zero x h⟩, fun _ => rotl_getLsbD x n⟩

end Sys2Proof.Machine
end

section
/-! PROOFS. The life of a command: a CMD write while idle and while busy (O8, O9), the step that runs
the accepted word (O5, O7), and the end of every command that does not wait (O12). -/

namespace Sys2Proof.Machine

/-- A word write at CMD's offset is a CMD write (R71, R110, R115). -/
@[simp] theorem memWrite_cmd (v : Word) (c : CoreState) :
    memWrite 0x0008#14 .b4 v c = cmdWrite v c := by
  have haligned : ¬ (0x0008#14 : Offset).toNat % widthBytes .b4 ≠ 0 := by decide
  have hregion : regionAt 0x0008#14 = .reg .cmd := regionAt_word (k := 2) rfl
  rw [memWrite, if_neg haligned, hregion]
  rfl

/-- A CMD write while idle is accepted (R110). -/
theorem cmdWrite_of_idle (v : Word) {c : CoreState} (hidle : c.status.busy = false) :
    cmdWrite v c = (okayWith 0#32, c.accept v) := by
  simp [cmdWrite, hidle]

/-- A CMD write while busy is discarded (R115). -/
theorem cmdWrite_of_busy (v : Word) {c : CoreState} (hbusy : c.status.busy = true) :
    cmdWrite v c = (errorResponse, c.setLockErr) :=
  if_pos hbusy

/-- Settles O8: the accepted core written out. -/
theorem cmdWriteWhileIdleAccepted : Obligations.CmdWriteWhileIdleAccepted := by
  intro v c hidle
  rw [memWrite_cmd, cmdWrite_of_idle v hidle]
  rfl

/-- Settles O9. -/
theorem cmdWriteWhileBusyDiscarded : Obligations.CmdWriteWhileBusyDiscarded := by
  intro v c hbusy
  rw [memWrite_cmd, cmdWrite_of_busy v hbusy]
  rfl

/-- A state given the core's turn steps by that turn, which uses up nothing else (log entry 4). -/
theorem step_withCoreTurn (s : State) : step s.withCoreTurn = coreTurn exec s := by
  cases h : s.inputs with
  | nil =>
    have hturn : s.withCoreTurn = s := by rw [State.withCoreTurn, h]
    have hmove : s.nextMove = .core := by rw [State.nextMove, h]; rfl
    rw [hturn, step_of_core hmove, State.afterMove_of_silent h]
  | cons i rest =>
    have hturn : s.withCoreTurn = { s with inputs := .core :: i :: rest } := by
      rw [State.withCoreTurn, h]
    rw [hturn, step_of_inputs rfl, ← h]
    rfl

/-- Settles O5: the word loses nothing below 2^32, and the core's turn runs it. -/
theorem fetchedWordRuns : Obligations.FetchedWordRuns := by
  intro s w i hw hi
  rw [State.withFetchWord, Nat.mod_eq_of_lt hw, step_withCoreTurn]
  exact coreTurn_of_pending rfl rfl hi

/-- Out of reset an idle core takes a CMD write in one step (R61, R110). -/
theorem step_of_cmdWrite {s : State} {v : Word} {rest : List Input} (hrst : s.rstN = true)
    (hidle : s.core.status.busy = false)
    (h : s.inputs = .bus (.write 0x0008#14 .b4 v) :: rest) :
    step s = .next { s with
      inputs := rest, core := s.core.accept v, resp := some (okayWith 0#32) } := by
  rw [(busAndEntropyMoves s rest).1 _ hrst h, transact, memWrite_cmd, cmdWrite_of_idle v hidle]

/-- The listed turn of the core runs the pending command (R112). -/
theorem step_of_pending {s : State} {q : Pending} {i : Instr} {rest : List Input}
    (h : s.inputs = .core :: rest) (hrst : s.rstN = true) (hq : s.core.pending = some q)
    (hi : decode q.word = .ok i) : step s = exec i { s with inputs := rest } :=
  (stepRunsPendingCommand s q i rest hrst hq hi).2 h

/-- Settles O7: the write is accepted, and the core's turn then runs the pending command. -/
theorem acceptedCommandCompletesNext : Obligations.AcceptedCommandCompletesNext := by
  intro s i rest hrst hidle hinputs
  exact ⟨_, step_of_cmdWrite hrst hidle hinputs, rfl, rfl, rfl, rfl, rfl,
    step_of_pending rfl hrst (CoreState.accept_pending _ _ _) (decode_encode i)⟩

/-- How the end of a command leaves the machine: the core idle with DONE set, and the listed moves as
they were (R112). -/
structure State.CommandEnded (s t : State) : Prop where
  busy : t.core.status.busy = false
  done : t.core.status.done = true
  pending : t.core.pending = none
  inputs : t.inputs = s.inputs

/-- A CBC_ENC that leaves its own state waits for an offer: any completion ends PENDING (R112,
R267). -/
theorem waiting_of_execCbcEnc_self {s : State} {q : Pending} (hq : s.core.pending = some q)
    (h : execCbcEnc s = .next s) :
    cbcEncCheck s.core.operands = none ∧ s.core.operands.ctrl.ivMode = false ∧
      s.entropy = none := by
  have hended : ∀ t : State, t.core.pending = none → ¬ execCbcEnc s = .next t := by
    intro t ht hnext
    cases hnext.symm.trans h
    cases hq.symm.trans ht
  rcases completeCbcEnc_cases Config.params s with
    ⟨e, _, hk⟩ | ⟨hcheck, hmode, hoffer, _⟩ | ⟨iv, _, _, hk⟩
  · exact absurd hk (hended _ rfl)
  · exact ⟨hcheck, hmode, hoffer⟩
  · exact absurd hk (hended _ rfl)

/-- A pending command ends, unless `ent_ready` is raised and nothing is on offer (R112, R117). -/
theorem exec_ends {s t : State} {q : Pending} {i : Instr} (hq : s.core.pending = some q)
    (hi : decode q.word = .ok i) (hoffer : s.core.entReady = false ∨ s.entropy ≠ none)
    (h : exec i s = .next t) : s.CommandEnded t := by
  cases exec_answeredBy h with
  | failed e => exact ⟨rfl, rfl, rfl, rfl⟩
  | completed _ _ => exact ⟨rfl, rfl, rfl, rfl⟩
  | waiting hcbc =>
    subst hcbc
    obtain ⟨hcheck, hmode, hnone⟩ := waiting_of_execCbcEnc_self hq h
    have hready : s.core.entReady = true := by
      rw [entReady_of_cbcEnc hq hi, hcheck, hmode]
      rfl
    rw [hready, hnone] at hoffer
    simp at hoffer

/-- The core's turn ends what is pending: a command that does not wait, or a word that is no command
(R112, R227). -/
theorem coreTurn_ends {s : State} {q : Pending} (hrst : s.rstN = true)
    (hq : s.core.pending = some q) (hoffer : s.core.entReady = false ∨ s.entropy ≠ none) :
    ∃ t, coreTurn exec s = .next t ∧ s.CommandEnded t := by
  cases hword : decode q.word with
  | ok i =>
    obtain ⟨t, ht⟩ := exec_answers_next i s
    exact ⟨t, (coreTurn_of_pending hrst hq hword).trans ht, exec_ends hq hword hoffer ht⟩
  | error e => exact ⟨_, coreTurn_of_illegal hrst hq hword, rfl, rfl, rfl, rfl⟩

/-- Settles O12: the step is the core's turn, which ends what is pending. -/
theorem completionEndsCommand : Obligations.CompletionEndsCommand := by
  intro s q hrst hq hmove hoffer
  obtain ⟨t, ht, hended⟩ := coreTurn_ends (s := s.afterMove) hrst hq hoffer
  exact ⟨t, (step_of_core hmove).trans ht, hended.busy, hended.done, hended.pending, hended.inputs⟩

end Sys2Proof.Machine
end

section
/-! PROOFS. The lock while busy (O43): the locked registers by their place in the map, the busy
buffers, and the accesses that stay open. -/

namespace Sys2Proof.Machine

/-! ### The locked registers in the map -/

/-- The registers locked to reads: IN_LEN, OUT_LEN, and KEY, BLK and IV from word 8 on (R114). -/
theorem regAt_readLocked {k : Nat} {r : Reg} (h : regAt k = some r) :
    r.readLocked = true ↔ k = 5 ∨ k = 6 ∨ 8 ≤ k := by
  have hall : ∀ k < 24, ((regAt k).any Reg.readLocked = true ↔ k = 5 ∨ k = 6 ∨ 8 ≤ k) := by
    decide
  simpa [h] using hall k (regAt_lt h)

/-- The registers locked to writes: CTRL, IN_LEN, and KEY, BLK and IV from word 8 on (R114). -/
theorem regAt_writeLocked {k : Nat} {r : Reg} (h : regAt k = some r) :
    r.writeLocked = true ↔ k = 1 ∨ k = 5 ∨ 8 ≤ k := by
  have hall : ∀ k < 24, ((regAt k).any Reg.writeLocked = true ↔ k = 1 ∨ k = 5 ∨ 8 ≤ k) := by
    decide
  simpa [h] using hall k (regAt_lt h)

/-- What the lock keeps from writes is neither CMD nor read-only (R69, R114). -/
theorem Reg.writeLocked_writable {r : Reg} (h : r.writeLocked = true) :
    r ≠ .cmd ∧ r.readOnly = false := by
  cases r with
  | ctrl | inLen | key | blk | iv => exact ⟨by simp, rfl⟩
  | id | cmd | status | irqEn | outLen | active => cases h

/-- An aligned word offset of the register region is that of a register of the map (R23, R62). -/
theorem exists_register_at {a : Offset} (hlt : a.toNat < 0x0060)
    (haligned : a.toNat % widthBytes .b4 = 0) :
    ∃ k r, a.toNat = 4 * k ∧ a = BitVec.ofNat 14 (4 * k) ∧ regAt k = some r := by
  obtain ⟨r, hr⟩ := exists_regAt (a.toNat / 4) (by omega)
  have hword : a.toNat = 4 * (a.toNat / 4) :=
    (Nat.mul_div_cancel' (Nat.dvd_of_mod_eq_zero haligned)).symm
  exact ⟨a.toNat / 4, r, hword, by rw [← hword, BitVec.ofNat_toNat, BitVec.setWidth_eq], hr⟩

/-! ### Accesses while busy -/

section Busy

variable {a : Offset} {n : Width} {c : CoreState}

/-- The two buffers fill `0x1000 .. 0x2FFF` (R62). -/
theorem regionAt_buffer (hlo : 0x1000 ≤ a.toNat) (hhi : a.toNat < 0x3000) :
    (∃ k, regionAt a = .inBuf k) ∨ ∃ k, regionAt a = .outBuf k := by
  by_cases hin : a.toNat < 0x2000
  · exact .inl ⟨_, regionAt_inBuf_default hlo hin⟩
  · exact .inr ⟨_, regionAt_outBuf_default (by omega) hhi⟩

/-- A buffer is locked to reads while busy (R70, R114). -/
theorem memRead_buffer_busy (hbusy : c.status.busy = true) (hlo : 0x1000 ≤ a.toNat)
    (hhi : a.toNat < 0x3000) (haligned : a.toNat % widthBytes n = 0) :
    memRead a n c = (errorResponse, c.setLockErr) := by
  rw [memRead, if_neg (not_not.mpr haligned)]
  rcases regionAt_buffer hlo hhi with ⟨k, hk⟩ | ⟨k, hk⟩ <;> rw [hk] <;> exact if_pos hbusy

/-- A buffer is locked to writes while busy (R71, R114). -/
theorem memWrite_buffer_busy (hbusy : c.status.busy = true) (hlo : 0x1000 ≤ a.toNat)
    (hhi : a.toNat < 0x3000) (haligned : a.toNat % widthBytes n = 0) (v : Word) :
    memWrite a n v c = (errorResponse, c.setLockErr) := by
  rw [memWrite, if_neg (not_not.mpr haligned)]
  rcases regionAt_buffer hlo hhi with ⟨k, hk⟩ | ⟨k, hk⟩ <;> rw [hk] <;> exact if_pos hbusy

/-- A word read of a locked register while busy (R70, R114). -/
theorem memRead_word_busy {k : Nat} {r : Reg} (hr : regAt k = some r)
    (hlocked : r.readLocked = true) (hbusy : c.status.busy = true) :
    memRead (BitVec.ofNat 14 (4 * k)) .b4 c = (errorResponse, c.setLockErr) := by
  rw [memRead_word hr, hbusy, hlocked]
  rfl

/-- A word write of a locked register while busy (R71, R114). -/
theorem memWrite_word_busy {k : Nat} {r : Reg} (hr : regAt k = some r)
    (hlocked : r.writeLocked = true) (hbusy : c.status.busy = true) (v : Word) :
    memWrite (BitVec.ofNat 14 (4 * k)) .b4 v c = (errorResponse, c.setLockErr) := by
  obtain ⟨hcmd, hwritable⟩ := Reg.writeLocked_writable hlocked
  rw [memWrite_word hr hcmd, hwritable, hbusy, hlocked]
  rfl

/-- The reads that the lock refuses (R114). -/
theorem memRead_locked (hbusy : c.status.busy = true) (haligned : a.toNat % widthBytes n = 0)
    (hword : a.toNat < 0x0060 → n = .b4)
    (hoffset : a.toNat = 0x14 ∨ a.toNat = 0x18 ∨ (0x20 ≤ a.toNat ∧ a.toNat < 0x60) ∨
      (0x1000 ≤ a.toNat ∧ a.toNat < 0x3000)) :
    memRead a n c = (errorResponse, c.setLockErr) := by
  by_cases hlt : a.toNat < 0x0060
  · cases hword hlt
    obtain ⟨k, r, hk, rfl, hr⟩ := exists_register_at hlt haligned
    exact memRead_word_busy hr ((regAt_readLocked hr).mpr (by omega)) hbusy
  · exact memRead_buffer_busy hbusy (by omega) (by omega) haligned

/-- The writes that the lock refuses (R114). -/
theorem memWrite_locked (hbusy : c.status.busy = true) (haligned : a.toNat % widthBytes n = 0)
    (hword : a.toNat < 0x0060 → n = .b4)
    (hoffset : a.toNat = 0x04 ∨ a.toNat = 0x14 ∨ (0x20 ≤ a.toNat ∧ a.toNat < 0x60) ∨
      (0x1000 ≤ a.toNat ∧ a.toNat < 0x3000)) (v : Word) :
    memWrite a n v c = (errorResponse, c.setLockErr) := by
  by_cases hlt : a.toNat < 0x0060
  · cases hword hlt
    obtain ⟨k, r, hk, rfl, hr⟩ := exists_register_at hlt haligned
    exact memWrite_word_busy hr ((regAt_writeLocked hr).mpr (by omega)) hbusy v
  · exact memWrite_buffer_busy hbusy (by omega) (by omega) haligned v

end Busy

/-! ### Accesses that stay open -/

/-- A register that is not locked to reads answers its value, busy or idle (R70, R114). -/
theorem memRead_open {a : Offset} (haligned : a.toNat % widthBytes .b4 = 0)
    (hoffset : a.toNat = 0x00 ∨ a.toNat = 0x04 ∨ a.toNat = 0x08 ∨ a.toNat = 0x0C ∨
      a.toNat = 0x10 ∨ a.toNat = 0x1C) (c : CoreState) :
    ∃ v, memRead a .b4 c = (okayWith v, c) := by
  obtain ⟨k, r, hk, rfl, hr⟩ := exists_register_at (by omega) haligned
  have hopen : r.readLocked = false := by
    rw [← Bool.not_eq_true, regAt_readLocked hr]
    omega
  exact ⟨_, memRead_word_unlocked hr (by rw [hopen, Bool.and_false])⟩

/-- STATUS and IRQ_EN take writes, busy or idle (R71, R114). -/
theorem memWrite_open {a : Offset} (hoffset : a.toNat = 0x0C ∨ a.toNat = 0x10) (v : Word)
    (c : CoreState) : ∃ d, memWrite a .b4 v c = (okayWith 0#32, d) := by
  rcases hoffset with h | h
  · obtain rfl : a = 0x000C#14 := BitVec.eq_of_toNat_eq h
    exact ⟨_, memWrite_status v c⟩
  · obtain rfl : a = 0x0010#14 := BitVec.eq_of_toNat_eq h
    exact ⟨_, memWrite_irqEn v c⟩

/-- Settles O43: the refused reads and writes, and the open ones. -/
theorem busyAccessesLocked : Obligations.BusyAccessesLocked := by
  refine fun a n v c hbusy haligned hword => ⟨memRead_locked hbusy haligned hword,
    fun hoffset => memWrite_locked hbusy haligned hword hoffset v, fun hoffset => ?_,
    fun hoffset => ?_⟩
  · cases hword (by omega)
    obtain ⟨_, hread⟩ := memRead_open haligned hoffset c
    rw [hread]
    exact ⟨rfl, rfl⟩
  · cases hword (by omega)
    obtain ⟨_, hwrite⟩ := memWrite_open hoffset v c
    rw [hwrite]
    rfl

end Sys2Proof.Machine
end

section
/-! PROOFS. The key schedule: its initialisation (O16), the length of `expand` and the iterations of
its mixing loop (O17), and the outcomes of KEY_EXPAND (O13) and KEY_CLEAR (O14). -/

namespace Sys2Proof.Machine

/-! ### The schedule -/

/-- Each word of the initial schedule is `Q32` above the one before (R141). -/
theorem scheduleFrom_getD_succ {n k : Nat} (h : k + 1 < n) (x : Word) :
    (scheduleFrom n x).getD (k + 1) 0#32 = (scheduleFrom n x).getD k 0#32 + Config.q32 := by
  induction n generalizing k x with
  | zero => omega
  | succ n ih =>
    cases k with
    | zero =>
      obtain ⟨m, rfl⟩ := Nat.exists_eq_succ_of_ne_zero (by omega : n ≠ 0)
      rfl
    | succ k => exact ih (by omega) (x + Config.q32)

/-- Settles O16: the first word by the definition, the step by `scheduleFrom_getD_succ`. -/
theorem scheduleInitialisation : Obligations.ScheduleInitialisation := by
  refine fun r => ⟨scheduleFrom_length _ _, rfl, fun k hpos hlast => ?_⟩
  obtain ⟨j, rfl⟩ := Nat.exists_eq_add_of_le' hpos
  exact scheduleFrom_getD_succ (by omega) _

/-- The mixing loop makes three passes over the schedule when the key has no more words than it
(R142). -/
theorem mixCount_of_key_fits {b r : Nat} (h : b ≤ 4 * (2 * r + 4)) :
    mixCount b r = 3 * (2 * r + 4) := by
  have hwords : (b + 3) / 4 ≤ 2 * r + 4 := by omega
  rw [mixCount, max_eq_right hwords]

/-- Settles O17: only the 8 words of 32 key bytes exceed a schedule, the 6 words of r = 1. -/
theorem expandLengthAndCount : Obligations.ExpandLengthAndCount :=
  ⟨expand_length, fun _ _ hlen hr => mixCount_of_key_fits (by omega),
    mixCount_of_key_fits (by decide), mixCount_of_key_fits (by decide), rfl⟩

/-! ### KEY_EXPAND and KEY_CLEAR -/

/-- The legal values of KEYLEN are the three of R144. -/
theorem legalKeyLen_iff {k : BitVec 6} :
    legalKeyLen k.toNat = true ↔ k = 16#6 ∨ k = 24#6 ∨ k = 32#6 := by
  refine ⟨keyLen_of_legal, ?_⟩
  rintro (rfl | rfl | rfl) <;> rfl

/-- A stored expansion takes the first `2r + 4` words of S (R35, R145). -/
theorem storeSchedule_expand (old : List Word) (key : List Byte) (r : Nat) :
    storeSchedule old (expand key r) = expand key r ++ old.drop (2 * r + 4) := by
  rw [storeSchedule, expand_length]

section KeyExpand

variable {ops : Operands}

/-- KEY_EXPAND on a legal length and round count (R145). -/
theorem keyExpand_of_legal (hlen : legalKeyLen ops.ctrl.keyLen.toNat = true)
    (hrounds : ops.ctrl.rounds ≠ 0#8) (c : CoreState) :
    keyExpand ops c = .ok { c with
      sched := expand ops.keyBytes ops.ctrl.rounds.toNat
        ++ c.sched.drop (2 * ops.ctrl.rounds.toNat + 4)
      active := { schedR := ops.ctrl.rounds, schedKLen := ops.ctrl.keyLen }
      status := { c.status with keyValid := true } } := by
  have hlegal : legalRounds ops.ctrl.rounds.toNat = true := by
    rw [legalRounds_default, decide_eq_true hrounds]
  rw [keyExpand, if_neg (not_not.mpr hlen), if_neg (not_not.mpr hlegal), storeSchedule_expand]

/-- The length is checked first (R221, R229). -/
theorem keyExpand_of_illegal_length (hlen : ¬ legalKeyLen ops.ctrl.keyLen.toNat = true)
    (c : CoreState) : keyExpand ops c = .error .invalidKeyLength :=
  if_pos hlen

/-- With a legal length, no rounds are the error (R224, R229). -/
theorem keyExpand_of_no_rounds (hlen : legalKeyLen ops.ctrl.keyLen.toNat = true)
    (hrounds : ops.ctrl.rounds = 0#8) (c : CoreState) :
    keyExpand ops c = .error .invalidRounds := by
  have hillegal : ¬ legalRounds ops.ctrl.rounds.toNat = true := by
    rw [legalRounds_default, decide_eq_true_eq]
    exact not_not.mpr hrounds
  rw [keyExpand, if_neg (not_not.mpr hlen), if_pos hillegal]

end KeyExpand

/-- The command KEY_EXPAND completes `keyExpand` on the captured operands (R112, R145). -/
theorem exec_keyExpand (s : State) :
    exec .keyExpand s = s.finish false (keyExpand s.core.operands s.core) := rfl

/-- The command KEY_CLEAR completes `keyClear` (R112, R146). -/
theorem exec_keyClear (s : State) :
    exec .keyClear s = s.finish false (.ok (keyClear s.core)) := rfl

/-- An error completion is the failed state with the error's code (R228). -/
theorem State.finish_error_eq_failed (s : State) (b : Bool) (e : ErrCode) :
    s.finish b (.error e) = .next (s.failed b e.code) := rfl

/-- Settles O13: what `keyExpand` gives in each case, completed. -/
theorem keyExpandOutcomes : Obligations.KeyExpandOutcomes := by
  refine fun s => ⟨fun hlen hrounds => ?_, fun hlen => ?_, fun hlen hrounds => ?_⟩
  · rw [exec_keyExpand, keyExpand_of_legal (legalKeyLen_iff.mpr hlen) hrounds, State.finish_ok]
    rfl
  · have hillegal : ¬ legalKeyLen s.core.operands.ctrl.keyLen.toNat = true := by
      rw [legalKeyLen_iff, not_or, not_or]
      exact hlen
    rw [exec_keyExpand, keyExpand_of_illegal_length hillegal, State.finish_error_eq_failed]
    rfl
  · rw [exec_keyExpand, keyExpand_of_no_rounds (legalKeyLen_iff.mpr hlen) hrounds,
      State.finish_error_eq_failed]
    rfl

/-- Settles O14: KEY_CLEAR is the completion of `keyClear`, with the 514 words of S at R9's R_MAX. -/
theorem keyClearOutcome : Obligations.KeyClearOutcome := by
  intro s
  rw [exec_keyClear, State.finish_ok]
  rfl

end Sys2Proof.Machine
end

section
/-! PROOFS. The block transform: its two directions undo each other round by round (O22), the
outcomes of BLK_ENC (O23) and BLK_DEC (O24), and a host that runs one after the other (O25). -/

namespace Sys2Proof.Machine

/-! ### The transform and its inverse -/

section Transform

variable (sched : List Word)

/-- A round of decryption rebuilds t and u from the words that the round of encryption only moved
(R161). -/
theorem decRound_encRound (i : Nat) (q : Quad) :
    decRound sched i (encRound sched i q) = q := by
  simp only [decRound, encRound, BitVec.add_sub_cancel, rotr_rotl, BitVec.xor_assoc,
    BitVec.xor_self, BitVec.xor_zero]

theorem encRound_decRound (i : Nat) (q : Quad) :
    encRound sched i (decRound sched i q) = q := by
  simp only [decRound, encRound, BitVec.sub_add_cancel, rotl_rotr, BitVec.xor_assoc,
    BitVec.xor_self, BitVec.xor_zero]

/-- Decryption takes the rounds back in falling order, the last one first (R161). -/
theorem decRounds_encRounds (r : Nat) (q : Quad) :
    decRounds sched r (encRounds sched r q) = q := by
  induction r with
  | zero => rfl
  | succ r ih => rw [encRounds, decRounds, decRound_encRound, ih]

theorem encRounds_decRounds (r : Nat) (q : Quad) :
    encRounds sched r (decRounds sched r q) = q := by
  induction r generalizing q with
  | zero => rfl
  | succ r ih => rw [encRounds, decRounds, ih, encRound_decRound]

/-- A block is the quad of its words. -/
theorem Quad.eta (q : Quad) : (⟨q.w0, q.w1, q.w2, q.w3⟩ : Quad) = q := rfl

/-- Between the two whitenings, each taken back by a subtraction, the rounds cancel (R161, R162). -/
theorem decryptWords_encryptWords (r : Nat) (q : Quad) :
    decryptWords sched r (encryptWords sched r q) = q := by
  simp only [decryptWords, encryptWords, BitVec.add_sub_cancel, Quad.eta, decRounds_encRounds]

theorem encryptWords_decryptWords (r : Nat) (q : Quad) :
    encryptWords sched r (decryptWords sched r q) = q := by
  simp only [decryptWords, encryptWords, BitVec.sub_add_cancel, Quad.eta, encRounds_decRounds]

end Transform

/-- Settles O22: on the words the directions are inverse, and the codec loses none of 16 bytes. -/
theorem blockTransformInverse : Obligations.BlockTransformInverse := by
  refine fun sched r x hx => ⟨?_, ?_⟩
  · rw [decryptBlock, encryptBlock, bytesToBlock_blockToBytes, decryptWords_encryptWords,
      blockToBytes_bytesToBlock hx]
  · rw [decryptBlock, encryptBlock, bytesToBlock_blockToBytes, encryptWords_decryptWords,
      blockToBytes_bytesToBlock hx]

/-- Decrypting the words of an encrypted block gives its words back (R162). -/
theorem decryptBlock_encryptBlock_words (sched : List Word) (r : Nat) (q : Quad) :
    bytesToBlock (decryptBlock (blockToBytes (bytesToBlock
      (encryptBlock (blockToBytes q) sched r))) sched r) = q := by
  rw [blockToBytes_bytesToBlock (encryptBlock_length _ _ _),
    (blockTransformInverse sched r _ (blockToBytes_length q)).1, bytesToBlock_blockToBytes]

/-! ### BLK_ENC and BLK_DEC -/

/-- The command BLK_ENC completes `blkEnc` on the captured operands (R112, R164). -/
theorem exec_blkEnc (s : State) :
    exec .blkEnc s = s.finish false (blkEnc s.core.operands s.core) := rfl

/-- The command BLK_DEC completes `blkDec` on the captured operands (R112, R165). -/
theorem exec_blkDec (s : State) :
    exec .blkDec s = s.finish false (blkDec s.core.operands s.core) := rfl

/-- Settles O23: the two branches of `blkEnc`, completed. -/
theorem blkEncOutcomes : Obligations.BlkEncOutcomes := by
  refine fun s => ⟨fun hkey => ?_, fun hnokey => ?_⟩
  · rw [exec_blkEnc, blkEnc, if_pos hkey, State.finish_ok]
    rfl
  · rw [exec_blkEnc, blkEnc, if_neg (Bool.eq_false_iff.mp hnokey), State.finish_error_eq_failed]
    rfl

/-- Settles O24: the two branches of `blkDec`, completed. -/
theorem blkDecOutcomes : Obligations.BlkDecOutcomes := by
  refine fun s => ⟨fun hkey => ?_, fun hnokey => ?_⟩
  · rw [exec_blkDec, blkDec, if_pos hkey, State.finish_ok]
    rfl
  · rw [exec_blkDec, blkDec, if_neg (Bool.eq_false_iff.mp hnokey), State.finish_error_eq_failed]
    rfl

/-! ### BLK_ENC and then BLK_DEC -/

/-- A run of any machine goes on from the state that its first step answers. -/
theorem run_succ_of_next (M : Host.Core) {s t : M.State} (h : M.step s = .next t) (k : Nat) :
    M.run (k + 1) s = M.run k t := by
  rw [Host.Core.run, h]

/-- A run of this machine goes on from the state that `step` answers. -/
theorem run_succ_of_step {s t : State} (h : step s = .next t) (k : Nat) :
    Host.Core.run core (k + 1) s = Host.Core.run core k t :=
  run_succ_of_next core (s := s) h k

/-- The state in which the command's word is accepted and the core's turn comes next (R110). -/
def State.accepted (s : State) (i : Instr) (rest : List Input) : State :=
  { s with
    inputs := rest, core := s.core.accept (encode i), resp := some (okayWith 0#32) }

/-- Two moves run a command on an idle core: the CMD write and the core's turn (R110, R112). -/
theorem run_of_command {s t : State} {i : Instr} {rest : List Input} (hrst : s.rstN = true)
    (hidle : s.core.status.busy = false)
    (hinputs : s.inputs = .bus (.write 0x0008#14 .b4 (encode i)) :: .core :: rest)
    (hexec : exec i (s.accepted i rest) = .next t) (k : Nat) :
    Host.Core.run core (k + 2) s = Host.Core.run core k t := by
  have haccept : step s = .next (s.accepted i (.core :: rest)) :=
    step_of_cmdWrite hrst hidle hinputs
  have hturn : step (s.accepted i (.core :: rest)) = .next t :=
    (step_of_pending (s := s.accepted i (.core :: rest)) rfl hrst
      (CoreState.accept_pending _ _ _) (decode_encode i)).trans hexec
  calc Host.Core.run core (k + 2) s
      = Host.Core.run core (k + 1) (s.accepted i (.core :: rest)) :=
        run_succ_of_step haccept (k + 1)
    _ = Host.Core.run core k t := run_succ_of_step hturn k

/-- An idle core whose BLK command ended with this block, the moves `rest` still to come (R112). -/
def State.withBlock (s : State) (q : Quad) (rest : List Input) : State :=
  { s with
    inputs := rest
    core := { s.core with blk := q, status := s.core.status.accept.complete, pending := none }
    resp := some (okayWith 0#32) }

section Moves

variable {s : State} {rest : List Input}

/-- BLK_ENC written and run by a host (R164). -/
theorem run_of_blkEnc (hrst : s.rstN = true) (hidle : s.core.status.busy = false)
    (hkey : s.core.status.keyValid = true)
    (hinputs : s.inputs = .bus (.write 0x0008#14 .b4 3#32) :: .core :: rest) (k : Nat) :
    Host.Core.run core (k + 2) s = Host.Core.run core k
      (s.withBlock (bytesToBlock (encryptBlock (blockToBytes s.core.blk) s.core.activeSchedule
        s.core.active.schedR.toNat)) rest) :=
  run_of_command (i := .blkEnc) hrst hidle hinputs ((blkEncOutcomes _).1 hkey) k

/-- BLK_DEC written and run by a host (R165). -/
theorem run_of_blkDec (hrst : s.rstN = true) (hidle : s.core.status.busy = false)
    (hkey : s.core.status.keyValid = true)
    (hinputs : s.inputs = .bus (.write 0x0008#14 .b4 4#32) :: .core :: rest) (k : Nat) :
    Host.Core.run core (k + 2) s = Host.Core.run core k
      (s.withBlock (bytesToBlock (decryptBlock (blockToBytes s.core.blk) s.core.activeSchedule
        s.core.active.schedR.toNat)) rest) :=
  run_of_command (i := .blkDec) hrst hidle hinputs ((blkDecOutcomes _).1 hkey) k

end Moves

/-- Settles O25: BLK_ENC changes neither the schedule nor its round count, so BLK_DEC undoes it. -/
theorem blkEncThenBlkDecRestores : Obligations.BlkEncThenBlkDecRestores := by
  intro s rest hrst hidle hkey hinputs
  have hrestored := decryptBlock_encryptBlock_words s.core.activeSchedule
    s.core.active.schedR.toNat s.core.blk
  refine ⟨_, (run_of_blkEnc hrst hidle hkey hinputs 2).trans
    (run_of_blkDec (s := s.withBlock _ _) hrst rfl hkey rfl 0), hrestored, rfl, rfl, rfl, rfl⟩

end Sys2Proof.Machine
end

section
/-! PROOFS. The padding codec: unpad inverts pad and accepts nothing else (O26, O27), and the
outcomes of PAD (O28) and UNPAD (O29). -/

namespace Sys2Proof.Machine

/-! ### The codec -/

theorem padLen_pos (len : Nat) : 1 ≤ padLen len := by
  unfold padLen
  omega

theorem padLen_le (len : Nat) : padLen len ≤ 16 := by
  unfold padLen
  omega

/-- A message followed by n bytes of value n unpads to the message (R181). -/
theorem unpadBytes_append_replicate (out : List Byte) {n : Nat} (hpos : 1 ≤ n) (hle : n ≤ 16) :
    unpadBytes (out ++ List.replicate n (BitVec.ofNat 8 n)) = some out := by
  have hlast : (out ++ List.replicate n (BitVec.ofNat 8 n)).getLast? = some (BitVec.ofNat 8 n) := by
    rw [List.getLast?_append, List.getLast?_replicate, if_neg (by omega), Option.some_or]
  have hvalue : (BitVec.ofNat 8 n).toNat = n := by
    rw [BitVec.toNat_ofNat]
    omega
  have hstart : (out ++ List.replicate n (BitVec.ofNat 8 n)).length - n = out.length := by simp
  simp only [unpadBytes, hlast, hvalue]
  rw [if_neg (by omega), if_neg (by simp), hstart, List.drop_left, List.take_left]
  simp

/-- Only such a message unpads: the last byte is the n that the pad repeats (R181). -/
theorem eq_append_replicate_of_unpadBytes {m out : List Byte} (h : unpadBytes m = some out) :
    ∃ n, 1 ≤ n ∧ n ≤ 16 ∧ m = out ++ List.replicate n (BitVec.ofNat 8 n) := by
  unfold unpadBytes at h
  split at h
  case h_1 => cases h
  case h_2 p hlast =>
    split at h
    case isTrue => cases h
    case isFalse hrange =>
      split at h
      case isTrue => cases h
      case isFalse hlong =>
        split at h
        case isFalse => cases h
        case isTrue hall =>
          have hpad : m.drop (m.length - p.toNat) = List.replicate p.toNat p :=
            List.eq_replicate_iff.mpr ⟨by rw [List.length_drop]; omega, by simpa using hall⟩
          refine ⟨p.toNat, by omega, by omega, ?_⟩
          rw [← Option.some.inj h, BitVec.ofNat_toNat, BitVec.setWidth_eq, ← hpad,
            List.take_append_drop]

/-- Settles O27: a padded message unpads, and nothing else does. -/
theorem unpadAcceptsExactlyPadded : Obligations.UnpadAcceptsExactlyPadded := by
  refine fun m out => ⟨eq_append_replicate_of_unpadBytes, ?_⟩
  rintro ⟨n, hpos, hle, rfl⟩
  exact unpadBytes_append_replicate out hpos hle

theorem unpadBytes_padBytes (m : List Byte) : unpadBytes (padBytes m) = some m :=
  unpadBytes_append_replicate m (padLen_pos _) (padLen_le _)

/-- Settles O26: pad fills up to the next whole block, and the one byte 1 is a padded empty message
that is no whole block. -/
theorem paddingLaws : Obligations.PaddingLaws := by
  refine ⟨fun m => ?_, [1#8], [], by decide,
    unpadBytes_append_replicate [] (n := 1) le_rfl (by decide)⟩
  rw [padBytes_length]
  exact ⟨by omega, by omega, by omega, unpadBytes_padBytes m⟩

/-! ### PAD and UNPAD -/

section Outcomes

variable {ops : Operands} {c : CoreState} {p : Params}

/-- PAD within both bounds delivers the padded message (R183). -/
theorem padMessage_of_fits (hin : ops.inLen.toNat ≤ p.inBufBytes)
    (hout : 16 * (ops.inLen.toNat / 16) + 16 ≤ p.outBufBytes) :
    padMessage ops c p = .ok (c.deliver (padBytes ops.inBytes)) := by
  rw [padMessage, if_neg (by omega), if_neg (by omega)]

/-- PAD outside either bound is INVALID_LENGTH (R183, R226). -/
theorem padMessage_of_too_long
    (h : p.inBufBytes < ops.inLen.toNat ∨ p.outBufBytes < 16 * (ops.inLen.toNat / 16) + 16) :
    padMessage ops c p = .error .invalidLength := by
  rcases padMessage_cases ops c p with hk | ⟨hin, hout, _⟩
  · exact hk
  · omega

/-- UNPAD of a padded message delivers the message (R184). -/
theorem unpadMessage_of_some {out : List Byte} (hin : ops.inLen.toNat ≤ p.inBufBytes)
    (hout : unpadBytes ops.inBytes = some out) : unpadMessage ops c p = .ok (c.deliver out) := by
  rw [unpadMessage, if_neg (by omega), hout]

/-- UNPAD of anything else is INVALID_PADDING (R184). -/
theorem unpadMessage_of_none (hin : ops.inLen.toNat ≤ p.inBufBytes)
    (hnone : unpadBytes ops.inBytes = none) :
    unpadMessage ops c p = .error .invalidPadding := by
  rw [unpadMessage, if_neg (by omega), hnone]

/-- UNPAD of more than InBuf holds is INVALID_LENGTH (R184, R226). -/
theorem unpadMessage_of_too_long (hin : p.inBufBytes < ops.inLen.toNat) :
    unpadMessage ops c p = .error .invalidLength :=
  if_pos hin

end Outcomes

/-- The command PAD completes `padMessage` on the captured operands (R112, R183). -/
theorem exec_pad (s : State) :
    exec .pad s = s.finish true (padMessage s.core.operands s.core) := rfl

/-- The command UNPAD completes `unpadMessage` on the captured operands (R112, R184). -/
theorem exec_unpad (s : State) :
    exec .unpad s = s.finish true (unpadMessage s.core.operands s.core) := rfl

/-- A command that delivers its output completes on the core that holds it (R112). -/
theorem State.finish_of_deliver {s : State} {b : Bool} {result : Except ErrCode CoreState}
    {out : List Byte} (h : result = .ok (s.core.deliver out)) :
    s.finish b result = .next { s with core := (s.core.deliver out).complete } := by
  rw [h, State.finish_ok]

/-- Settles O28: what `padMessage` gives inside and outside its bounds, completed. -/
theorem padOutcomes : Obligations.PadOutcomes := by
  refine fun s => ⟨fun hin hout => ?_, fun hlong => ?_⟩
  · exact ⟨_, (exec_pad s).trans (State.finish_of_deliver (padMessage_of_fits hin hout)),
      outputDelivered_of_deliver rfl rfl, rfl⟩
  · rw [exec_pad, padMessage_of_too_long hlong, State.finish_error_eq_failed]
    rfl

/-- Settles O29: what `unpadMessage` gives in each case, completed. -/
theorem unpadOutcomes : Obligations.UnpadOutcomes := by
  refine fun s => ⟨fun out hin hout => ?_, fun hlong => ?_, fun hin hnone => ?_⟩
  · exact ⟨_, (exec_unpad s).trans (State.finish_of_deliver (unpadMessage_of_some hin hout)),
      outputDelivered_of_deliver rfl rfl, rfl⟩
  · rw [exec_unpad, unpadMessage_of_too_long hlong, State.finish_error_eq_failed]
    rfl
  · rw [exec_unpad, unpadMessage_of_none hin hnone, State.finish_error_eq_failed]
    rfl

end Sys2Proof.Machine
end

section
/-! PROOFS. The chained-block mode: the shape of its output (O30), its round trip (O31) and what a
changed IV reaches (O32); CBC_ENC with a fixed IV (O33) and its errors (O36); the outcomes of CBC_DEC
(O37); and CBC_DEC after CBC_ENC (O38). -/

namespace Sys2Proof.Machine

/-! ### Encryption and its inverse -/

theorem xorBytes_assoc (x y z : List Byte) :
    xorBytes (xorBytes x y) z = xorBytes x (xorBytes y z) := by
  induction x generalizing y z with
  | nil => rfl
  | cons a x ih =>
    match y, z with
    | [], _ | _ :: _, [] => rfl
    | b :: y, c :: z => exact congrArg₂ List.cons (BitVec.xor_assoc a b c) (ih y z)

/-- Xoring twice with bytes that cover the operand gives the operand back. -/
theorem xorBytes_xorBytes_self {x y : List Byte} (h : x.length ≤ y.length) :
    xorBytes (xorBytes x y) y = x := by
  have hlen : (xorBytes (xorBytes x y) y).length = x.length := by
    rw [xorBytes_length, xorBytes_length]
    omega
  refine List.ext_getElem hlen fun k _ hk => ?_
  simp [xorBytes]

section Chain

variable {sched : List Word} {r : Nat} {prev : List Byte}

/-- Past the block in front, the bytes are those that follow it. -/
theorem drop_block_append (hprev : prev.length = 16) (out : List Byte) (k : Nat) :
    (prev ++ out).drop (16 * (k + 1)) = out.drop (16 * k) := by
  rw [Nat.mul_add_one, Nat.add_comm, ← hprev, List.drop_length_add_append]

/-- Each 16 bytes of the output are the encryption of a chunk xored with the 16 bytes of output
before them (R201). -/
theorem encChain_block (hprev : prev.length = 16) (text : List Byte) {n k : Nat} (hk : k < n) :
    ((prev ++ encChain sched r n text prev).drop (16 * (k + 1))).take 16 =
      encryptBlock
        (xorBytes ((text.drop (16 * k)).take 16)
          (((prev ++ encChain sched r n text prev).drop (16 * k)).take 16)) sched r := by
  induction n generalizing k text prev with
  | zero => omega
  | succ n ih =>
    cases k with
    | zero =>
      rw [drop_block_append hprev, encChain]
      simp only [Nat.mul_zero, List.drop_zero]
      rw [List.take_left' (encryptBlock_length _ _ _), List.take_left' hprev]
    | succ k =>
      rw [drop_block_append hprev, drop_block_append hprev, encChain,
        ih (encryptBlock_length _ _ _) (text.drop 16) (by omega), List.drop_drop,
        Nat.mul_add_one, Nat.add_comm]

/-- Chunk by chunk, decryption undoes encryption: the block transform is inverted, and the xor with
the block before is taken back (R162, R202). -/
theorem decChain_encChain (hprev : prev.length = 16) {n : Nat} {text : List Byte}
    (htext : text.length = 16 * n) :
    decChain sched r n (encChain sched r n text prev) prev = text := by
  induction n generalizing text prev with
  | zero => exact (List.eq_nil_of_length_eq_zero htext).symm
  | succ n ih =>
    have hchunk : (text.take 16).length = 16 := by rw [List.length_take]; omega
    have hrest : (text.drop 16).length = 16 * n := by rw [List.length_drop]; omega
    have hblock : (xorBytes (text.take 16) prev).length = 16 := by
      rw [xorBytes_length, hchunk, hprev, min_self]
    rw [encChain, decChain, List.take_left' (encryptBlock_length _ _ _),
      List.drop_left' (encryptBlock_length _ _ _), (blockTransformInverse sched r _ hblock).1,
      xorBytes_xorBytes_self (by omega), ih (encryptBlock_length _ _ _) hrest,
      List.take_append_drop]

end Chain

/-- Settles O30: the length, the IV in front, and `encChain_block` for each block. -/
theorem encryptChainedShape : Obligations.EncryptChainedShape :=
  fun p sched r _ hiv =>
    ⟨encryptChained_length p sched r hiv, List.take_left' hiv, fun _ => encChain_block hiv _⟩

/-- A ciphertext has room for the IV and one block, in whole blocks (R202). -/
theorem legalCiphertextLen_iff {n : Nat} :
    legalCiphertextLen n = true ↔ 32 ≤ n ∧ n % 16 = 0 := by
  simp [legalCiphertextLen]

/-- Decryption of a legal length answers what unpadding the recovered chunks does (R202). -/
theorem decryptChained_of_legal {y : List Byte} (h : legalCiphertextLen y.length = true)
    {sched : List Word} {r : Nat} {m : List Byte}
    (hm : unpadBytes (decChain sched r ((y.drop 16).length / 16) (y.drop 16) (y.take 16)) = some m) :
    decryptChained y sched r = .plain m := by
  rw [decryptChained, if_neg (not_not.mpr h), hm]

/-- Settles O31: the output has a legal length, its chunks decrypt to the padded plaintext, and that
unpads. -/
theorem chainedRoundTrip : Obligations.ChainedRoundTrip := by
  intro p sched r iv hiv
  have hlegal : legalCiphertextLen (encryptChained p sched r iv).length = true := by
    rw [legalCiphertextLen_iff, encryptChained_length p sched r hiv]
    omega
  have hpadded : (padBytes p).length = 16 * ((padBytes p).length / 16) := by
    rw [padBytes_length]
    omega
  apply decryptChained_of_legal hlegal
  rw [encryptChained, List.take_left' hiv, List.drop_left' hiv, encChain_length,
    Nat.mul_div_cancel_left _ (by decide), decChain_encChain hiv hpadded, unpadBytes_padBytes]

/-- Settles O32: the chaining block enters only by the xor of the first chunk. -/
theorem ivFlipReachesFirstPlaintextBlock : Obligations.IvFlipReachesFirstPlaintextBlock := by
  intro sched r n text iv delta _ hiv _
  have hfirst : (xorBytes (decryptBlock (text.take 16) sched r) iv).length = 16 := by
    rw [xorBytes_length, decryptBlock_length, hiv, min_self]
  rw [decChain, decChain, List.take_left' hfirst, List.drop_left' hfirst, xorBytes_assoc]

/-! ### CBC_ENC -/

/-- With IV_MODE = 1 the IV is the captured IV0..IV3, whatever the port shows (R203). -/
theorem selectIv_of_fixed {ops : Operands} (hmode : ops.ctrl.ivMode = true)
    (offer : Option EntropyWord) : selectIv ops offer = some (blockToBytes ops.iv) :=
  if_pos hmode

/-- With IV_MODE = 1 the offer stays on the port (R203). -/
theorem offerAfter_of_fixed {ops : Operands} (hmode : ops.ctrl.ivMode = true)
    (offer : Option EntropyWord) : offerAfter ops offer = offer :=
  if_pos hmode

/-- An IV is at hand with IV_MODE = 1 or with an offer on the port (R203). -/
theorem exists_selectIv {ops : Operands} {offer : Option EntropyWord}
    (h : ops.ctrl.ivMode = true ∨ offer ≠ none) : ∃ iv, selectIv ops offer = some iv := by
  by_cases hmode : ops.ctrl.ivMode = true
  · exact ⟨_, selectIv_of_fixed hmode offer⟩
  · obtain ⟨d, rfl⟩ := Option.ne_none_iff_exists'.mp (h.resolve_left hmode)
    exact ⟨_, selectIv_of_draw (Bool.eq_false_iff.mpr hmode) _⟩

/-- Settles O33: the checks pass, and the IV is the captured one. -/
theorem cbcEncWithFixedIv : Obligations.CbcEncWithFixedIv := by
  intro s hkey hin hout hmode
  refine ⟨_, exec_cbcEnc_of_iv (cbcEncCheck_eq_none_iff.mpr ⟨hkey, hin, hout⟩)
    (selectIv_of_fixed hmode _), outputDelivered_of_deliver rfl rfl, ?_⟩
  rw [offerAfter_of_fixed hmode, cbcEncrypt, bytesToBlock_blockToBytes]
  rfl

/-- A CBC_ENC whose check raises an error fails with it; the offer stays on the port (R203, R204). -/
theorem exec_cbcEnc_of_error {s : State} {e : ErrCode}
    (h : cbcEncCheck s.core.operands = some e) :
    exec .cbcEnc s = .next (s.failed true e.code) := by
  rw [← State.finish_error_eq_failed]
  simp [exec, execCbcEnc, completeCbcEnc, h]

/-- The schedule is checked first (R225, R229). -/
theorem cbcEncCheck_of_no_key {ops : Operands} {p : Params} (h : ops.keyValid = false) :
    cbcEncCheck ops p = some .noKey :=
  if_pos (by simp [h])

/-- With a schedule, either length out of bounds is the error (R226, R229). -/
theorem cbcEncCheck_of_too_long {ops : Operands} {p : Params} (hkey : ops.keyValid = true)
    (h : p.inBufBytes < ops.inLen.toNat ∨ p.outBufBytes < 32 + 16 * (ops.inLen.toNat / 16)) :
    cbcEncCheck ops p = some .invalidLength := by
  rw [cbcEncCheck, if_neg (not_not.mpr hkey)]
  split
  case isTrue => rfl
  case isFalse hin => exact if_pos (h.resolve_left hin)

/-- Settles O36: the two errors of the check, completed. -/
theorem cbcEncErrors : Obligations.CbcEncErrors :=
  fun _ => ⟨fun hnokey => exec_cbcEnc_of_error (cbcEncCheck_of_no_key hnokey),
    fun hkey hlong => exec_cbcEnc_of_error (cbcEncCheck_of_too_long hkey hlong)⟩

/-! ### CBC_DEC -/

/-- The command CBC_DEC completes `cbcDecrypt` on the captured operands (R112, R205). -/
theorem exec_cbcDec (s : State) :
    exec .cbcDec s = s.finish true (cbcDecrypt s.core.operands s.core) := rfl

/-- A CBC_DEC that raises an error ends in the failed state (R205, R228). -/
theorem exec_cbcDec_of_error {s : State} {e : ErrCode}
    (h : cbcDecrypt s.core.operands s.core = .error e) :
    exec .cbcDec s = .next (s.failed true e.code) := by
  rw [exec_cbcDec, h, State.finish_error_eq_failed]

section Decrypt

variable {ops : Operands} {p : Params}

/-- The schedule is checked first (R225, R229). -/
theorem cbcDecrypt_of_no_key (hkey : ops.keyValid = false) (c : CoreState) :
    cbcDecrypt ops c p = .error .noKey :=
  if_pos (by simp [hkey])

/-- Then the input bound (R226, R229). -/
theorem cbcDecrypt_of_too_long (hkey : ops.keyValid = true) (hin : p.inBufBytes < ops.inLen.toNat)
    (c : CoreState) : cbcDecrypt ops c p = .error .invalidLength := by
  rw [cbcDecrypt, if_neg (not_not.mpr hkey), if_pos hin]

/-- Then the ciphertext length (R222, R229). -/
theorem cbcDecrypt_of_illegal_length (hkey : ops.keyValid = true)
    (hin : ops.inLen.toNat ≤ p.inBufBytes)
    (hlen : ¬ legalCiphertextLen ops.inLen.toNat = true) (c : CoreState) :
    cbcDecrypt ops c p = .error .invalidCiphertextLength := by
  rw [cbcDecrypt, if_neg (not_not.mpr hkey), if_neg (by omega), if_pos hlen]

/-- Past these checks, a recovered plaintext is delivered (R205). -/
theorem cbcDecrypt_of_plain (hkey : ops.keyValid = true) (hin : ops.inLen.toNat ≤ p.inBufBytes)
    (hlen : legalCiphertextLen ops.inLen.toNat = true) {m : List Byte}
    (hplain : decryptChained ops.inBytes ops.sched ops.rounds = .plain m) (c : CoreState) :
    cbcDecrypt ops c p = .ok (c.deliver m) := by
  rw [cbcDecrypt, if_neg (not_not.mpr hkey), if_neg (by omega), if_neg (not_not.mpr hlen), hplain]

/-- Past these checks, bad padding is the error (R205, R223). -/
theorem cbcDecrypt_of_bad_padding (hkey : ops.keyValid = true)
    (hin : ops.inLen.toNat ≤ p.inBufBytes) (hlen : legalCiphertextLen ops.inLen.toNat = true)
    (hbad : decryptChained ops.inBytes ops.sched ops.rounds = .badPadding) (c : CoreState) :
    cbcDecrypt ops c p = .error .invalidPadding := by
  rw [cbcDecrypt, if_neg (not_not.mpr hkey), if_neg (by omega), if_neg (not_not.mpr hlen), hbad]

end Decrypt

/-- Settles O37: what `cbcDecrypt` gives in each case, completed. -/
theorem cbcDecOutcomes : Obligations.CbcDecOutcomes := by
  refine fun s => ⟨fun out hkey hin hmin hblocks hplain => ?_, fun hnokey => ?_,
    fun hkey hlong => ?_, fun hkey hin hlen => ?_, fun hkey hin hmin hblocks hbad => ?_⟩
  · have hlegal := legalCiphertextLen_iff.mpr ⟨hmin, hblocks⟩
    exact ⟨_, (exec_cbcDec s).trans
      (State.finish_of_deliver (cbcDecrypt_of_plain hkey hin hlegal hplain s.core)),
      outputDelivered_of_deliver rfl rfl, rfl⟩
  · exact exec_cbcDec_of_error (cbcDecrypt_of_no_key hnokey s.core)
  · exact exec_cbcDec_of_error (cbcDecrypt_of_too_long hkey hlong s.core)
  · have hillegal : ¬ legalCiphertextLen s.core.operands.inLen.toNat = true := by
      rw [legalCiphertextLen_iff]
      omega
    exact exec_cbcDec_of_error (cbcDecrypt_of_illegal_length hkey hin hillegal s.core)
  · have hlegal := legalCiphertextLen_iff.mpr ⟨hmin, hblocks⟩
    exact exec_cbcDec_of_error (cbcDecrypt_of_bad_padding hkey hin hlegal hbad s.core)

/-! ### CBC_DEC after CBC_ENC -/

section Delivered

variable {before after : CoreState} {out : List Byte}

/-- The length of a delivered output is the value of OUT_LEN (R30). -/
theorem OutputDelivered.outLen_toNat (h : OutputDelivered before after out)
    (hfits : out.length < 2 ^ 32) : after.outLen.toNat = out.length := by
  obtain ⟨hlen, _, _⟩ := h
  rw [hlen, BitVec.toNat_ofNat, Nat.mod_eq_of_lt hfits]

/-- A delivered output is the message that the core shows (R38, R266). -/
theorem OutputDelivered.output_eq (h : OutputDelivered before after out)
    (hfits : out.length < 2 ^ 32) : after.output = out := by
  have hlen := h.outLen_toNat hfits
  obtain ⟨_, hbytes, _⟩ := h
  rw [CoreState.output, hlen]
  refine List.ext_getElem (Memory.bytes_length _ _ _) fun k hk hout => ?_
  rw [Memory.bytes_getElem hk, Nat.zero_add, hbytes k hout, List.getD_eq_getElem _ _ hout]

end Delivered

/-- CBC_ENC with an IV at hand delivers the chained ciphertext under some IV of 16 bytes (R203,
R204). -/
theorem outputDelivered_of_cbcEnc {s t : State} (hcheck : cbcEncCheck s.core.operands = none)
    (hiv : s.core.operands.ctrl.ivMode = true ∨ s.entropy ≠ none)
    (h : exec .cbcEnc s = .next t) :
    ∃ iv, iv.length = 16 ∧ OutputDelivered s.core t.core
      (encryptChained s.core.operands.inBytes s.core.operands.sched s.core.operands.rounds iv) := by
  obtain ⟨iv, hselect⟩ := exists_selectIv hiv
  rw [exec_cbcEnc_of_iv hcheck hselect] at h
  cases h
  exact ⟨iv, selectIv_length hselect, outputDelivered_of_deliver rfl rfl⟩

/-- Settles O38: what CBC_ENC delivered passes the checks of CBC_DEC, which decrypts it to the message
by O31. -/
theorem machineChainedRoundTrip : Obligations.MachineChainedRoundTrip := by
  intro s t u hmsg hkey hin hiv henc hukey hsched hactive hinLen hinBytes
  have hcheck : cbcEncCheck s.core.operands = none := by
    rw [cbcEncCheck_eq_none_iff, Config.params_inBufBytes, Config.params_outBufBytes]
    exact ⟨hkey, by omega, by omega⟩
  obtain ⟨iv, hivLen, hcipher⟩ := outputDelivered_of_cbcEnc hcheck hiv henc
  have hcipherLen := encryptChained_length s.core.operands.inBytes s.core.operands.sched
    s.core.operands.rounds hivLen
  have hfits : (encryptChained s.core.operands.inBytes s.core.operands.sched
      s.core.operands.rounds iv).length < 2 ^ 32 := by omega
  have hulen : u.core.operands.inLen.toNat = 32 + 16 * (s.core.operands.inBytes.length / 16) := by
    rw [hinLen, hcipher.outLen_toNat hfits, hcipherLen]
  have hplain : decryptChained u.core.operands.inBytes u.core.operands.sched
      u.core.operands.active.schedR.toNat = .plain s.core.operands.inBytes := by
    rw [hinBytes, hcipher.output_eq hfits, hsched, hactive]
    exact chainedRoundTrip _ _ _ iv hivLen
  obtain ⟨hsuccess, _⟩ := cbcDecOutcomes u
  obtain ⟨v, hdec, hmessage, hv⟩ :=
    hsuccess _ hukey (by omega) (by omega) (by omega) hplain
  refine ⟨v, hdec, hmessage.output_eq (by omega), ?_⟩
  rw [hv]
  exact ⟨rfl, rfl⟩

end Sys2Proof.Machine
end

section
/-! PROOFS. Precise errors (O59): the commands that raise each error, and the one state in which a
command that raised an error ends. -/

namespace Sys2Proof.Machine

/-- The commands that raise each error (R220); ILLEGAL_COMMAND is that of words that are no command
(R227). -/
def ErrCode.raisedBy : ErrCode → List Instr
  | .invalidKeyLength => [.keyExpand]
  | .invalidCiphertextLength => [.cbcDec]
  | .invalidPadding => [.cbcDec, .unpad]
  | .invalidRounds => [.keyExpand]
  | .noKey => [.blkEnc, .blkDec, .cbcEnc, .cbcDec]
  | .invalidLength => [.cbcEnc, .cbcDec, .pad, .unpad]
  | .illegalCommand => []

/-! ### The errors of each command -/

section Raised

variable {ops : Operands} {c : CoreState} {p : Params} {e : ErrCode}

theorem keyExpand_raises (h : keyExpand ops c p = .error e) : .keyExpand ∈ e.raisedBy := by
  rcases keyExpand_cases ops c p with ⟨_, hk⟩ | ⟨_, _, hk⟩ | ⟨_, _, hk⟩ <;> cases hk.symm.trans h
  · exact .head _
  · exact .head _

theorem blkEnc_raises (h : blkEnc ops c = .error e) : .blkEnc ∈ e.raisedBy := by
  unfold blkEnc at h
  split at h <;> cases h
  decide

theorem blkDec_raises (h : blkDec ops c = .error e) : .blkDec ∈ e.raisedBy := by
  unfold blkDec at h
  split at h <;> cases h
  decide

theorem cbcEncCheck_raises (h : cbcEncCheck ops p = some e) : .cbcEnc ∈ e.raisedBy := by
  unfold cbcEncCheck at h
  split at h
  · cases h
    decide
  · split at h
    · cases h
      decide
    · split at h <;> cases h
      decide

/-- The checks of CBC_DEC first (R229), then what `decryptChained` answers (R202). -/
theorem cbcDecrypt_raises (h : cbcDecrypt ops c p = .error e) : .cbcDec ∈ e.raisedBy := by
  unfold cbcDecrypt at h
  split at h
  · cases h
    decide
  · split at h
    · cases h
      decide
    · split at h
      · cases h
        decide
      · split at h <;> cases h
        · decide
        · decide

theorem padMessage_raises (h : padMessage ops c p = .error e) : .pad ∈ e.raisedBy := by
  rcases padMessage_cases ops c p with hk | ⟨_, _, hk⟩ <;> cases hk.symm.trans h
  decide

theorem unpadMessage_raises (h : unpadMessage ops c p = .error e) : .unpad ∈ e.raisedBy := by
  rcases unpadMessage_cases ops c p with hk | hk | ⟨_, _, _, hk⟩ <;> cases hk.symm.trans h
  · decide
  · decide

end Raised

/-! ### The state a failed command ends in -/

/-- No command's updates set ERR (R112). -/
theorem CoreState.UpdatedBy.err {i : Instr} {c d : CoreState} (h : c.UpdatedBy i d) :
    d.status.err = c.status.err := by
  cases h <;> rfl

section Failed

variable {i : Instr} {s t : State}

/-- A completion that newly sets ERR is that of an error. -/
theorem State.finish_raised {result : Except ErrCode CoreState}
    (hok : ∀ c, result = .ok c → s.core.UpdatedBy i c)
    (hraises : ∀ e, result = .error e → i ∈ e.raisedBy) (hclean : s.core.status.err = false)
    (h : s.finish (producesOutput i) result = .next t) (herr : t.core.status.err = true) :
    ∃ e : ErrCode, i ∈ e.raisedBy ∧ t = s.failed (producesOutput i) e.code := by
  rcases s.finish_cases (producesOutput i) result with ⟨c, hc, hk⟩ | ⟨e, he, hk⟩ <;>
    cases hk.symm.trans h
  · cases hclean.symm.trans ((hok c hc).err.symm.trans herr)
  · exact ⟨e, hraises e he, rfl⟩

theorem execCbcEnc_raised (hclean : s.core.status.err = false) (h : execCbcEnc s = .next t)
    (herr : t.core.status.err = true) :
    ∃ e : ErrCode, .cbcEnc ∈ e.raisedBy ∧ t = s.failed (producesOutput .cbcEnc) e.code := by
  rcases completeCbcEnc_cases Config.params s with ⟨e, he, hk⟩ | ⟨_, _, _, hk⟩ | ⟨_, _, _, hk⟩ <;>
    cases hk.symm.trans h
  · exact ⟨e, cbcEncCheck_raises he, rfl⟩
  · cases hclean.symm.trans herr
  · cases hclean.symm.trans herr

/-- A command that newly sets ERR raised one of its errors and left nothing else behind (R228). -/
theorem exec_raised (hclean : s.core.status.err = false) (h : exec i s = .next t)
    (herr : t.core.status.err = true) :
    ∃ e : ErrCode, i ∈ e.raisedBy ∧ t = s.failed (producesOutput i) e.code := by
  cases i with
  | keyExpand =>
    exact State.finish_raised (fun _ => keyExpand_updatedBy) (fun _ => keyExpand_raises) hclean h
      herr
  | keyClear =>
    exact State.finish_raised (result := .ok (keyClear s.core))
      (fun _ hc => Except.ok.inj hc ▸ .keyClear) (fun _ he => nomatch he) hclean h herr
  | blkEnc =>
    exact State.finish_raised (fun _ => blkEnc_updatedBy) (fun _ => blkEnc_raises) hclean h herr
  | blkDec =>
    exact State.finish_raised (fun _ => blkDec_updatedBy) (fun _ => blkDec_raises) hclean h herr
  | cbcEnc => exact execCbcEnc_raised hclean h herr
  | cbcDec =>
    exact State.finish_raised (fun _ => cbcDecrypt_updatedBy) (fun _ => cbcDecrypt_raises) hclean h
      herr
  | pad =>
    exact State.finish_raised (fun _ => padMessage_updatedBy) (fun _ => padMessage_raises) hclean h
      herr
  | unpad =>
    exact State.finish_raised (fun _ => unpadMessage_updatedBy) (fun _ => unpadMessage_raises)
      hclean h herr

end Failed

/-- The buffer-producing commands, listed (R17). -/
theorem producesOutput_eq_decide (i : Instr) :
    producesOutput i = decide (i = .cbcEnc ∨ i = .cbcDec ∨ i = .pad ∨ i = .unpad) := by
  cases i <;> rfl

/-- Settles O59: the state is that of some error the command raises (`exec_raised`), and R220's
table gives the error's code. -/
theorem errorsArePrecise : Obligations.ErrorsArePrecise := by
  intro i s t hclean h herr
  obtain ⟨e, hraised, rfl⟩ := exec_raised hclean h herr
  refine ⟨by rw [producesOutput_eq_decide]; rfl, ?_⟩
  have hcode : (s.failed (producesOutput i) e.code).core.status.errCode = e.code := rfl
  rw [hcode]
  cases e with
  | illegalCommand => exact nomatch hraised
  | _ => simpa [ErrCode.raisedBy, ErrCode.code] using hraised

end Sys2Proof.Machine
end

section
/-! PROOFS. The idle core's turn (O11). -/

namespace Sys2Proof.Machine

/-- With nothing pending the core's turn does nothing, whatever the commands mean (R240). -/
theorem coreTurn_of_idle (run : Instr → State → Host.Outcome State Fault Refusal) {s : State}
    (h : s.core.pending = none) : coreTurn run s = .next s := by
  have hword : s.pendingWord = none := by
    rw [State.pendingWord, h]
    exact ite_self none
  rw [coreTurn, hword]

/-- Settles O11: the move is the core's, with the host silent or the turn listed. -/
theorem idleCoreTurnChangesNothing : Obligations.IdleCoreTurnChangesNothing := by
  intro s rest hidle
  refine ⟨fun hsilent => ?_, fun hturn => ?_⟩
  · have hmove : s.nextMove = .core := by rw [State.nextMove, hsilent]; rfl
    rw [step_of_core hmove, State.afterMove_of_silent hsilent, coreTurn_of_idle exec hidle]
  · rw [step_of_inputs hturn]
    exact coreTurn_of_idle exec hidle

end Sys2Proof.Machine
end

section
/-! PROOFS. The interrupt output (O52). -/

namespace Sys2Proof.Machine

/-- The definition of `irq` (R232). -/
theorem CoreState.irq_eq_true_iff (c : CoreState) :
    c.irq = true ↔ c.doneIe = true ∧ c.status.done = true :=
  Bool.and_eq_true_iff

section Irq

variable {c : CoreState}

theorem CoreState.irq_of_not_done (h : c.status.done = false) : c.irq = false := by
  rw [CoreState.irq, h, Bool.and_false]

theorem CoreState.irq_of_masked (h : c.doneIe = false) : c.irq = false := by
  rw [CoreState.irq, h, Bool.false_and]

theorem CoreState.irq_of_done (h : c.status.done = true) : c.irq = c.doneIe := by
  rw [CoreState.irq, h, Bool.and_true]

end Irq

/-- Settles O52: the STATUS write, acceptance and reset clear DONE, the IRQ_EN write clears DONE_IE,
and both completions set DONE. -/
theorem interruptOutput : Obligations.InterruptOutput := by
  refine fun c => ⟨c.irq_eq_true_iff, fun v hack => ?_, fun v hidle => ?_,
    fun _ => CoreState.irq_of_not_done rfl, fun v hmask => ?_,
    fun _ _ => ⟨CoreState.irq_of_done rfl, CoreState.irq_of_done rfl⟩⟩
  · rw [memWrite_status]
    exact CoreState.irq_of_not_done (if_pos hack)
  · rw [memWrite_cmd, cmdWrite_of_idle v hidle]
    exact CoreState.irq_of_not_done rfl
  · rw [memWrite_irqEn]
    exact ⟨CoreState.irq_of_masked hmask, rfl⟩

end Sys2Proof.Machine
end

section
/-! PROOFS. The fall and the release of reset (O54). -/

namespace Sys2Proof.Machine

/-- The release of reset takes the reset values again; the draws of its fall stand (R250, U3). -/
theorem State.applyResetHigh_of_low {s : State} (h : s.rstN = false) (p : Params) :
    s.applyResetHigh p = { s with core := CoreState.reset s.core.inBuf p, rstN := true } :=
  if_neg (Bool.eq_false_iff.mp h)

section Reset

variable {s : State} {draws : List Host.Cell} {rest : List Input}

/-- The fall of reset asks nothing of the state: whatever the core was doing is gone (R251). -/
theorem step_of_resetLow (h : s.inputs = .resetLow draws :: rest) :
    step s = .next { s with
      inputs := rest, core := CoreState.reset (Memory.ofDraws draws 4096), rstN := false,
      resp := none } :=
  step_of_inputs h

theorem step_of_resetHigh (hrst : s.rstN = false) (h : s.inputs = .resetHigh :: rest) :
    step s = .next { s with
      inputs := rest, core := CoreState.reset s.core.inBuf, rstN := true } :=
  (step_of_inputs h).trans <| congrArg Host.Outcome.next <|
    State.applyResetHigh_of_low (s := { s with inputs := rest }) hrst Config.params

/-- Two moves reset the core from any state; the InBuf contents are those drawn at the fall. -/
theorem run_of_reset (h : s.inputs = .resetLow draws :: .resetHigh :: rest) (k : Nat) :
    Host.Core.run core (k + 2) s = Host.Core.run core k { s with
      inputs := rest, core := CoreState.reset (Memory.ofDraws draws 4096), rstN := true,
      resp := none } :=
  (run_succ_of_step (step_of_resetLow h) (k + 1)).trans
    (run_succ_of_step (step_of_resetHigh rfl rfl) k)

end Reset

/-- Settles O54: the flags and PENDING are those of the reset record. -/
theorem resetAbandonsCommand : Obligations.ResetAbandonsCommand := by
  intro s draws rest hinputs
  exact ⟨Memory.ofDraws draws 4096, _, step_of_resetLow hinputs, Memory.wf_ofDraws draws 4096,
    run_of_reset hinputs 0, rfl, rfl, rfl, rfl, rfl, rfl, rfl⟩

end Sys2Proof.Machine
end
